-- ==== Sys2Proof/Word.lean ====
section
/-! DEFINITION. The words of fixed width: the 16-bit instruction word and its two fields (30_encoding.md R90, R91), and
a cache address. The value of a register, a CPU memory cell or a cache counter is a `Nat`: WORD_WIDTH and CTR_W are
arguments of the model and WORD_WIDTH may be unbounded (00_scope.md R8; 41_cpu_instructions.md R157; logs 5, 6). That
these values keep to their widths is in the invariants of Safety.lean. -/

namespace Sys2Proof

/-- An instruction word, 16 bits whatever the width of a cell (30_encoding.md R90). -/
abbrev InstrWord := BitVec 16

/-- The opcode field, bits 15:12 of an instruction word (30_encoding.md R91). -/
abbrev Nibble := BitVec 4

/-- The operand address field, bits 11:0 of an instruction word (30_encoding.md R91). -/
abbrev OperandField := BitVec 12

/-- A cache address the range check has admitted, 0..63 (45_cache_engine.md R211, R220). -/
abbrev CacheAddress := BitVec 6

end Sys2Proof
end

