-- ==== Sys2Proof/Config.lean ====
section
/-! DEFINITION. What the CAS core fixes (00_scope.md R7), the parameters it leaves open with the values the spec
takes (R8), and the one free value of the model. -/

namespace Sys2Proof

/-- `WORD_WIDTH`, the width of the five registers and of every CPU memory cell (00_scope.md R8, D1): a number of bits,
none below 16 because a cell holds a 16-bit instruction word (30_encoding.md R90), or unbounded
(41_cpu_instructions.md R157; log 5). -/
inductive WordWidth where
  /-- 16 + `beyond16` bits -/
  | bits (beyond16 : Nat)
  | unbounded
  deriving DecidableEq, Repr

/-- What an ADD does when the exact sum exceeds 2^WORD_WIDTH − 1 (00_scope.md R8, D2). `unbounded` selects unbounded
words with it (D2; log 5). -/
inductive AddOverflow where
  | fault
  | wrap
  | unbounded
  deriving DecidableEq, Repr

/-- The three mapping policies (10_state.md R30). -/
inductive Policy where
  | direct
  | setAssociative
  | fullyAssociative
  deriving DecidableEq, Repr

/-- The implementation parameters of 00_scope.md R8, each an argument of the model (log 3). -/
structure Params where
  /-- `WORD_WIDTH` -/
  wordWidth : WordWidth
  addOverflow : AddOverflow
  /-- true: the stop test is made on every step(); false: only before a FETCH (40_cpu_cycle.md R123). -/
  stopCheckEveryMicroStep : Bool
  /-- true: load_program zeroes the cells it does not write (42_cpu_host_ops.md R183). -/
  loadClearsMemory : Bool
  /-- the mapping policy at power-on, OPEN in the spec (70_reset_and_hazards.md R290, D13). -/
  initialPolicy : Policy
  /-- `CTR_W`, the width of access_count, hit_count and each line's access_time (10_state.md R33, D14; log 6). -/
  ctrWidth : Nat
  deriving DecidableEq, Repr

/-- The values 00_scope.md R8 takes.
One, the OPEN `initialPolicy`, is the suggested value: DESIGN CHOICE, log 4, unsafe. -/
def Params.taken : Params where
  wordWidth := .bits 0
  addOverflow := .fault
  stopCheckEveryMicroStep := true
  loadClearsMemory := false
  initialPolicy := .direct
  ctrWidth := 32

/-- `MEM_CELLS` (00_scope.md R7). -/
abbrev memCells : Nat := 16

/-- load_program seeds cell 10 with 5 and cell 11 with 3 (00_scope.md R7; 42_cpu_host_ops.md R185). -/
def seeds : List (Nat × Nat) := [(10, 5), (11, 3)]

/-- The upper-case form of a character outside ASCII, a letter or not, which the spec does not give (30_encoding.md
R101): a FREE VALUE, so that no claim rests on one Unicode table (DESIGN CHOICE, log 15, safe). -/
opaque Config.upperNonAscii : Char → List Char

end Sys2Proof
end

