-- ==== Sys2Proof/Syntax.lean ====
section
/-! DEFINITION. The instructions of the CAS core, one constructor for each row of spec/opcode_table.json, and the
record load_program keeps of a source line (30_encoding.md R105). -/

namespace Sys2Proof

/-- One instruction word, by its opcode nibble, with the operand address of bits 11:0 (30_encoding.md R91, R93, R94). -/
inductive Instr where
  | load (addr : OperandField)
  | store (addr : OperandField)
  | add (addr : OperandField)
  | nop0 (addr : OperandField)
  | nop4 (addr : OperandField)
  | nop5 (addr : OperandField)
  | nop6 (addr : OperandField)
  | nop7 (addr : OperandField)
  | nop8 (addr : OperandField)
  | nop9 (addr : OperandField)
  | nopA (addr : OperandField)
  | nopB (addr : OperandField)
  | nopC (addr : OperandField)
  | nopD (addr : OperandField)
  | nopE (addr : OperandField)
  | nopF (addr : OperandField)
  deriving DecidableEq, Repr

/-- A parsed instruction record {mnemonic, operand_address, source_line} (10_state.md R24; 30_encoding.md R105). -/
structure ProgRecord where
  /-- the upper-cased first token -/
  mnemonic : List Char
  /-- the operand's value, absent where an unrecognised mnemonic has no all-digit operand token -/
  operandAddress : Option Nat
  /-- the 0-based line of the source text, blank lines counted -/
  sourceLine : Nat
  deriving DecidableEq, Repr

end Sys2Proof
end

