-- ==== Sys2Proof/WellFormed.lean ====
section
/-! DEFINITION. Which loaded programs are well formed. Every term of `Instr` is well formed by its type: the opcode
is the constructor and the operand a 12-bit field (30_encoding.md R91, R95), so statements about instructions carry
no such hypothesis. A record list has three checks. -/

namespace Sys2Proof

/-- The recognised mnemonics, upper-cased (30_encoding.md R101). -/
def recognised (m : List Char) : Bool :=
  m == ['L', 'O', 'A', 'D'] || m == ['S', 'T', 'O', 'R', 'E'] || m == ['A', 'D', 'D']

/-- A recognised record has an operand that fits the 12-bit field (30_encoding.md R102, R104). -/
def ProgRecord.wf (r : ProgRecord) : Bool :=
  !recognised r.mnemonic || r.operandAddress.any (· ≤ 4095)

/-- The source lines of the records, in order, from `first` on: strictly rising (30_encoding.md R105). -/
def risingLines (first : Nat) : List ProgRecord → Bool
  | [] => true
  | r :: rs => decide (first ≤ r.sourceLine) && risingLines (r.sourceLine + 1) rs

/-- A program load_program can have loaded: at most 16 records (42_cpu_host_ops.md R180, R184), each well formed, in
the order of their lines. -/
def programWf (p : List ProgRecord) : Bool :=
  decide (p.length ≤ memCells) && p.all ProgRecord.wf && risingLines 0 p

end Sys2Proof
end

