-- ==== Sys2Proof/Decode.lean ====
section
/-! DEFINITION. Decoding a 16-bit word, encoding an instruction, and the spelling of a word in the trace
(30_encoding.md R91 to R95, R103, R106). Decoding is total (R95): there is no word it rejects. -/

namespace Sys2Proof

/-- The instruction word in a register or a cell: its bits 15:0 (00_scope.md R9; 30_encoding.md R90, R91). -/
def instrWord (v : Nat) : InstrWord := BitVec.ofNat 16 v

/-- Bits 15:12 (30_encoding.md R91). -/
def opcodeField (w : InstrWord) : Nibble := w.extractLsb' 12 4

/-- Bits 11:0 (30_encoding.md R91). -/
def addrField (w : InstrWord) : OperandField := w.extractLsb' 0 12

/-- The instruction of an opcode nibble (30_encoding.md R93, R94; opcode_table.json). The one nibble the last arm is
left with is 0xF. -/
def instrOf (opcode : Nibble) (addr : OperandField) : Instr :=
  match opcode with
  | 0x0#4 => .nop0 addr
  | 0x1#4 => .load addr
  | 0x2#4 => .store addr
  | 0x3#4 => .add addr
  | 0x4#4 => .nop4 addr
  | 0x5#4 => .nop5 addr
  | 0x6#4 => .nop6 addr
  | 0x7#4 => .nop7 addr
  | 0x8#4 => .nop8 addr
  | 0x9#4 => .nop9 addr
  | 0xA#4 => .nopA addr
  | 0xB#4 => .nopB addr
  | 0xC#4 => .nopC addr
  | 0xD#4 => .nopD addr
  | 0xE#4 => .nopE addr
  | _ => .nopF addr

/-- The instruction a word decodes to, by its bits 15:12 alone (30_encoding.md R95). -/
def decodeWord (w : InstrWord) : Instr := instrOf (opcodeField w) (addrField w)

/-- The opcode nibble of an instruction (30_encoding.md R93; opcode_table.json). -/
def Instr.opcode : Instr → Nibble
  | .load _ => 0x1
  | .store _ => 0x2
  | .add _ => 0x3
  | .nop0 _ => 0x0
  | .nop4 _ => 0x4
  | .nop5 _ => 0x5
  | .nop6 _ => 0x6
  | .nop7 _ => 0x7
  | .nop8 _ => 0x8
  | .nop9 _ => 0x9
  | .nopA _ => 0xA
  | .nopB _ => 0xB
  | .nopC _ => 0xC
  | .nopD _ => 0xD
  | .nopE _ => 0xE
  | .nopF _ => 0xF

/-- The operand address of an instruction (30_encoding.md R92). -/
def Instr.addr : Instr → OperandField
  | .load a | .store a | .add a | .nop0 a | .nop4 a | .nop5 a | .nop6 a | .nop7 a
  | .nop8 a | .nop9 a | .nopA a | .nopB a | .nopC a | .nopD a | .nopE a | .nopF a => a

/-- `word = (opcode << 12) | addr` (30_encoding.md R103). -/
def encode (i : Instr) : InstrWord := i.opcode ++ i.addr

/-- The instruction the decoder reads from a table row's bits: the one format is 16 bits long (30_encoding.md R90,
R96), so bits above `nbits` are 0 and a row longer than a word is no instruction of this machine. -/
def decodeTableWord (nbits w : Nat) : Option Instr :=
  if nbits ≤ 16 then some (decodeWord (BitVec.ofNat 16 (w % 2 ^ nbits))) else none

/-- A number in decimal digits. -/
def decimal (n : Nat) : List Char := Nat.toDigits 10 n

/-- The mnemonic of an instruction in the spelling of the trace (30_encoding.md R106). -/
def Instr.spelledName : Instr → List Char
  | .load _ => ['L', 'O', 'A', 'D']
  | .store _ => ['S', 'T', 'O', 'R', 'E']
  | .add _ => ['A', 'D', 'D']
  | .nop0 _ => ['N', 'O', 'P', '.', '0']
  | .nop4 _ => ['N', 'O', 'P', '.', '4']
  | .nop5 _ => ['N', 'O', 'P', '.', '5']
  | .nop6 _ => ['N', 'O', 'P', '.', '6']
  | .nop7 _ => ['N', 'O', 'P', '.', '7']
  | .nop8 _ => ['N', 'O', 'P', '.', '8']
  | .nop9 _ => ['N', 'O', 'P', '.', '9']
  | .nopA _ => ['N', 'O', 'P', '.', 'A']
  | .nopB _ => ['N', 'O', 'P', '.', 'B']
  | .nopC _ => ['N', 'O', 'P', '.', 'C']
  | .nopD _ => ['N', 'O', 'P', '.', 'D']
  | .nopE _ => ['N', 'O', 'P', '.', 'E']
  | .nopF _ => ['N', 'O', 'P', '.', 'F']

/-- The spelling of a word in the trace: mnemonic, one space, the address in decimal (30_encoding.md R106). -/
def spelling (w : InstrWord) : List Char :=
  (decodeWord w).spelledName ++ ' ' :: decimal (decodeWord w).addr.toNat

end Sys2Proof
end

