-- ==== Sys2Proof/Machine/State.lean ====
section
/-! DEFINITION. The state of the CAS core: the CPU Engine's record (10_state.md R20 to R28), the Cache Engine's
(R30 to R36), the implementation parameters, the host's pending transactions and the record the last transaction
returned; and the state at power-on (R42, R43; 70_reset_and_hazards.md R290). -/

namespace Sys2Proof.Machine

/-- CPU memory: (cell index, word) pairs, indices strictly rising, no word equal to 0, which is what an unlisted cell
reads as (10_state.md R23, R42; log 7). The smallest addressable unit is the cell (20_memory.md R63). -/
abbrev Memory := List (Nat × Nat)

/-- The five registers by name, for the touched sets (10_state.md R20; 40_cpu_cycle.md R128). -/
inductive Reg where
  | ac
  | pc
  | ir
  | mar
  | mbr
  deriving DecidableEq, Repr

/-- A CPU fault with its info (60_exceptions.md R261). -/
inductive CpuFault where
  /-- code 1, EXECUTE of LOAD, STORE or ADD with MAR ≥ 16 -/
  | operandRange (opcode : Nibble) (addr : Nat)
  /-- code 2, ADD whose exact sum exceeds 2^WORD_WIDTH − 1 under addOverflow = fault -/
  | addOverflow (ac : Nat) (operand : Nat) (sum : Nat)
  deriving DecidableEq, Repr

/-- The micro-step `currentStep mod 3` selects (40_cpu_cycle.md R122). -/
inductive Phase where
  | fetch
  | decode
  | execute
  deriving DecidableEq, Repr

/-- The CPU Engine's observable mode (10_state.md R27). -/
inductive Mode where
  | stopped
  | fetch
  | decode
  | execute
  deriving DecidableEq, Repr

/-- The CPU Engine's state (10_state.md R20 to R28). The five registers and the cells of `mem` are unsigned numbers of
`WORD_WIDTH` bits (R20, R23; log 5). -/
structure Cpu where
  ac : Nat
  pc : Nat
  ir : Nat
  mar : Nat
  mbr : Nat
  mem : Memory
  /-- the loaded records; `progLen` is their number (R24, log 10) -/
  prog : List ProgRecord
  running : Bool
  currentStep : Nat
  /-- `cpuFault` -/
  fault : Option CpuFault
  deriving DecidableEq, Repr

/-- `progLen`, the number of records of the program (10_state.md R24). -/
def Cpu.progLen (c : Cpu) : Nat := c.prog.length

/-- The CPU Engine at power-on and after its reset (10_state.md R42). -/
def Cpu.cleared : Cpu where
  ac := 0
  pc := 0
  ir := 0
  mar := 0
  mbr := 0
  mem := []
  prog := []
  running := false
  currentStep := 0
  fault := none

/-- A cache line (10_state.md R31); `accessTime` is a number of `CTR_W` bits (log 6). -/
structure CacheLine where
  valid : Bool
  tag : CacheAddress
  data : BitVec 6
  accessTime : Nat
  deriving DecidableEq, Repr

/-- A line after set_mapping_policy or reset (10_state.md R43). -/
def CacheLine.cleared : CacheLine := ⟨false, 0, 0, 0⟩

/-- The cache structure, whose shape the policy in force decides (10_state.md R30, R32): the constructor is the
policy. -/
inductive CacheStore where
  | direct (lines : Vector CacheLine 8)
  | setAssociative (sets : Vector (Vector CacheLine 2) 4)
  | fullyAssociative (lines : Vector CacheLine 8)
  deriving DecidableEq, Repr

/-- `policy`, the mapping policy in force (10_state.md R30). -/
def CacheStore.policy : CacheStore → Policy
  | .direct _ => .direct
  | .setAssociative _ => .setAssociative
  | .fullyAssociative _ => .fullyAssociative

/-- The shape of a policy with every line cleared (10_state.md R43). -/
def CacheStore.cleared : Policy → CacheStore
  | .direct => .direct (Vector.replicate 8 .cleared)
  | .setAssociative => .setAssociative (Vector.replicate 4 (Vector.replicate 2 .cleared))
  | .fullyAssociative => .fullyAssociative (Vector.replicate 8 .cleared)

/-- Where an access landed (45_cache_engine.md R232, field `position`). -/
inductive Position where
  | line (index : Fin 8)
  | way (set : Fin 4) (way : Fin 2)
  deriving DecidableEq, Repr

/-- Why a miss took the line it filled (45_cache_engine.md R232). -/
inductive FillReason where
  | direct
  | free
  | lru
  deriving DecidableEq, Repr

/-- The `fill` field of an access record: the reason, and valid and tag of the replaced line (45_cache_engine.md R232). -/
structure Fill where
  reason : FillReason
  evictedValid : Bool
  evictedTag : CacheAddress
  deriving DecidableEq, Repr

/-- The record of an accepted access (45_cache_engine.md R232). -/
structure AccessRecord where
  policy : Policy
  address : Int
  /-- the line index, the set, or absent -/
  index : Option Nat
  tag : CacheAddress
  hit : Bool
  position : Position
  /-- absent on a hit -/
  fill : Option Fill
  data : BitVec 6
  accessCount : Nat
  hitCount : Nat
  deriving DecidableEq, Repr

/-- One entry of cacheLog (45_cache_engine.md R232). -/
inductive CacheRecord where
  | access (r : AccessRecord)
  /-- the ADDRESS_RANGE error, code 16 -/
  | addressRange (address : Int)
  /-- the COUNTER_OVERFLOW fault, code 3 -/
  | counterOverflow (address : Int)
  | reset
  deriving DecidableEq, Repr

/-- `cacheFault` with its info (10_state.md R36; 60_exceptions.md R261, R263; log 18). -/
inductive CacheFault where
  | counterOverflow (address : Int)
  deriving DecidableEq, Repr

/-- The Cache Engine's state (10_state.md R30 to R36); the two counters are numbers of `CTR_W` bits (R33; log 6). -/
structure Cache where
  store : CacheStore
  accessCount : Nat
  hitCount : Nat
  /-- `cacheLog`, oldest record first -/
  log : List CacheRecord
  /-- `cacheFault` -/
  fault : Option CacheFault
  deriving DecidableEq, Repr

/-- The Cache Engine at power-on (10_state.md R43; 70_reset_and_hazards.md R290). -/
def Cache.powerOn (p : Policy) : Cache where
  store := .cleared p
  accessCount := 0
  hitCount := 0
  log := []
  fault := none

/-- The host transactions (10_state.md R40). The source text is its list of characters. -/
inductive Transaction where
  | loadProgram (source : List Char)
  | step
  | cpuReset
  | setMappingPolicy (p : Policy)
  | access (address : Int)
  | cacheReset
  deriving DecidableEq, Repr

/-- Why the host's transaction is refused (60_exceptions.md R266): an output of the machine, no stop of the model. -/
inductive HostRefusal where
  | programTooLong
  | badSyntax
  | missingOperand
  | badOperand
  | operandTooLarge
  | cacheHalted
  deriving DecidableEq, Repr

/-- Why a step() stops (40_cpu_cycle.md R121). -/
inductive StopReason where
  | notRunning
  | pcExhausted
  deriving DecidableEq, Repr

/-- The operation an EXECUTE record names (40_cpu_cycle.md R130). -/
inductive ExecOp where
  | load
  | store
  | add
  | nop
  deriving DecidableEq, Repr

/-- The trace record of a step() (40_cpu_cycle.md R130). -/
inductive StepRecord where
  | stopped (reason : StopReason)
  | fetch (addr : Nat) (word : Nat) (pcNext : Nat)
  | decode (opcode : Nibble) (addr : OperandField) (text : List Char)
  | execute (op : ExecOp) (addr : Nat) (value : Option Nat) (acAfter : Nat)
  | executeFault (f : CpuFault)
  deriving DecidableEq, Repr

/-- What a transaction returns beside the new state, which is `State` itself (10_state.md R40; log 2). -/
inductive Response where
  /-- load_program was performed; what it returns is `State.loadView` -/
  | loaded
  /-- step(): the explanation, touched_registers and touched_memory_addresses (40_cpu_cycle.md R120) -/
  | stepped (explanation : StepRecord) (touchedRegisters : List Reg) (touchedMemory : List Nat)
  | cpuReset
  | policySet
  /-- access(): hit and the explanation (45_cache_engine.md R210) -/
  | accessed (hit : Bool) (explanation : CacheRecord)
  /-- access(): the ADDRESS_RANGE error (45_cache_engine.md R211) -/
  | accessError (explanation : CacheRecord)
  /-- access(): the COUNTER_OVERFLOW fault (60_exceptions.md R263) -/
  | accessFault (explanation : CacheRecord)
  | cacheReset
  | refused (reason : HostRefusal)
  deriving DecidableEq, Repr

/-- The whole CAS core. -/
structure State where
  cpu : Cpu
  cache : Cache
  /-- the implementation parameters; no transaction changes them (log 3) -/
  params : Params
  /-- the transactions the serialised caller has still to issue, oldest first (10_state.md R41; log 1) -/
  requests : List Transaction
  /-- what the last transaction returned (log 2) -/
  output : Option Response
  deriving DecidableEq, Repr

/-- Why the model stops with a fault. The spec's own faults are next states (log 12). -/
inductive Fault where
  /-- Raised by FETCH alone, when PC names no cell of M (PC ≥ 16), an access to an address that does not exist
  (20_memory.md R60). No reachable state meets it (10_state.md R22). Safe: no claim is made of what follows (log 8). -/
  | fetchOutsideMemory (pc : Nat)
  deriving DecidableEq, Repr

/-- Why the model refuses. -/
inductive Refusal where
  /-- Raised by an arm of `exec` whose instruction has no meaning yet; no arm does. Safe. -/
  | notModelled (mnemonic : String)
  deriving DecidableEq, Repr

/-- The machine at power-on under the parameters `p` (70_reset_and_hazards.md R290). -/
def State.powerOn (p : Params) : State where
  cpu := .cleared
  cache := .powerOn p.initialPolicy
  params := p
  requests := []
  output := none

/-- The machine right after reset, under the parameter values of 00_scope.md R8 (log 3, log 4). -/
def State.reset : State := .powerOn .taken

end Sys2Proof.Machine
end

