-- ==== Sys2Proof/Machine/Assembler.lean ====
section
/-! DEFINITION. Assembling the source text of load_program (30_encoding.md R98 to R105; 60_exceptions.md R265, R266). -/

namespace Sys2Proof.Machine

/-- A text cut at the characters `p` picks, the cut characters dropped. -/
def cutAt (p : Char → Bool) : List Char → List (List Char)
  | [] => [[]]
  | c :: cs =>
    if p c then [] :: cutAt p cs
    else
      match cutAt p cs with
      | [] => [[c]]
      | l :: ls => (c :: l) :: ls

/-- Lines are separated by U+000A (30_encoding.md R98). -/
def sourceLines (src : List Char) : List (List Char) := cutAt (· == '\n') src

/-- Space, tab, carriage return (30_encoding.md R99). -/
def isBlank (c : Char) : Bool := c == ' ' || c == '\t' || c == '\r'

/-- The tokens of a line: what stands between runs of whitespace (30_encoding.md R100). -/
def tokens (line : List Char) : List (List Char) := (cutAt isBlank line).filter (· ≠ [])

/-- One character upper-cased (30_encoding.md R101). The form of every character outside ASCII, a letter or not, is a
free value: DESIGN CHOICE, log 15. An ASCII character that is no letter stays as it is. -/
def upperChar (c : Char) : List Char := if c.toNat < 128 then [c.toUpper] else Config.upperNonAscii c

/-- A mnemonic "normalized to upper-case" (30_encoding.md R101). -/
def upperCase (m : List Char) : List Char := m.flatMap upperChar

/-- The value of a token of one or more digits 0..9, none for another token (30_encoding.md R102). -/
def decimalValue (t : List Char) : Option Nat :=
  if t ≠ [] ∧ t.all Char.isDigit then some (t.foldl (fun n c => 10 * n + (c.toNat - 48)) 0) else none

/-- The instruction a recognised mnemonic names (30_encoding.md R93, R101). -/
def mnemonicInstr (m : List Char) : Option (OperandField → Instr) :=
  if m = ['L', 'O', 'A', 'D'] then some .load
  else if m = ['S', 'T', 'O', 'R', 'E'] then some .store
  else if m = ['A', 'D', 'D'] then some .add
  else none

/-- A record and the word placed in its cell. -/
abbrev Assembled := ProgRecord × InstrWord

/-- The operand of a recognised mnemonic: digits only, at most 4095 (30_encoding.md R102). -/
def checkedOperand (operand : Option (List Char)) : Except HostRefusal Nat :=
  match operand with
  | none => .error .missingOperand
  | some t =>
    match decimalValue t with
    | none => .error .badOperand
    | some n => if n ≤ 4095 then .ok n else .error .operandTooLarge

/-- The record and word of one instruction line (30_encoding.md R103, R104, R105). An unrecognised mnemonic encodes to
0, its operand unchecked. -/
def assembleTokens (line : Nat) (mnemonic : List Char) (operand : Option (List Char)) : Except HostRefusal Assembled :=
  let name := upperCase mnemonic
  match mnemonicInstr name with
  | none => .ok (⟨name, operand.bind decimalValue, line⟩, 0)
  | some instr =>
    match checkedOperand operand with
    | .error r => .error r
    | .ok n => .ok (⟨name, some n, line⟩, encode (instr (BitVec.ofNat 12 n)))

/-- One source line: nothing for a blank line (30_encoding.md R99), a refusal for more than two tokens (R100; log 14). -/
def assembleLine (line : Nat) (text : List Char) : Except HostRefusal (Option Assembled) :=
  match tokens text with
  | [] => .ok none
  | [m] => (assembleTokens line m none).map some
  | [m, o] => (assembleTokens line m (some o)).map some
  | _ => .error .badSyntax

/-- The lines of a text from line number `line` on; the first refused line decides (60_exceptions.md R265). -/
def assembleLines (line : Nat) : List (List Char) → Except HostRefusal (List Assembled)
  | [] => .ok []
  | text :: rest =>
    match assembleLine line text with
    | .error r => .error r
    | .ok here =>
      match assembleLines (line + 1) rest with
      | .error r => .error r
      | .ok after => .ok (here.toList ++ after)

/-- The whole text: refused where a line is, or where it has more than 16 records (42_cpu_host_ops.md R180). -/
def assemble (src : List Char) : Except HostRefusal (List Assembled) :=
  match assembleLines 0 (sourceLines src) with
  | .error r => .error r
  | .ok items => if items.length ≤ memCells then .ok items else .error .programTooLong

end Sys2Proof.Machine
end

