-- ==== Sys2Proof/Machine/Ops.lean ====
section
/-! DEFINITION. The named operations over memory and registers, and raising a CPU fault.
A fault is the machine's only exception: it saves no pc, changes no mode and goes to no handler (60_exceptions.md R268),
and no handler runs, so there is no return from one (R269); the way out is load_program or reset (HostOps.lean). -/

namespace Sys2Proof.Machine

/-! ### CPU memory -/

/-- The word an unlisted cell reads as: cells are 0 after reset (10_state.md R42). -/
def blankCell : Nat := 0

/-- The content of a cell, `M[a]`. -/
def Memory.cell : Memory → Nat → Nat
  | [], _ => blankCell
  | (b, w) :: m, a => if a = b then w else Memory.cell m a

/-- `MemRead(a, 1)`: none where `a` names no cell of M (20_memory.md R60, R67). -/
def Memory.read (m : Memory) (a : Nat) : Option Nat :=
  if a < memCells then some (m.cell a) else none

/-- Cell `a` set to `v`, the canonical form kept: a cell at its blank value is not listed. -/
def Memory.put : Memory → Nat → Nat → Memory
  | [], a, v => if v = blankCell then [] else [(a, v)]
  | (b, w) :: m, a, v =>
    if a < b then (if v = blankCell then (b, w) :: m else (a, v) :: (b, w) :: m)
    else if a = b then (if v = blankCell then m else (a, v) :: m)
    else (b, w) :: Memory.put m a v

/-- `MemWrite(a, 1, v)`: none where `a` names no cell of M (20_memory.md R60, R67). -/
def Memory.write (m : Memory) (a : Nat) (v : Nat) : Option Memory :=
  if a < memCells then some (m.put a v) else none

/-- The canonical form from cell `first` on: cells strictly rising, none blank. -/
def Memory.wfFrom (first : Nat) : Memory → Bool
  | [] => true
  | (a, w) :: m => decide (first ≤ a) && decide (a < memCells) && decide (w ≠ blankCell) && Memory.wfFrom (a + 1) m

/-- The canonical form of CPU memory: cells of 0..15, strictly rising, none listed at its blank value (log 7). -/
def Memory.wf (m : Memory) : Bool := Memory.wfFrom 0 m

/-! ### Register updates -/

/-- MBR and AC written: the effect of LOAD and ADD (41_cpu_instructions.md R152, R157). -/
def Cpu.withMbrAc (c : Cpu) (mbr ac : Nat) : Cpu := { c with mbr := mbr, ac := ac }

/-- MBR and memory written: the effect of STORE (41_cpu_instructions.md R155). -/
def Cpu.withMbrMem (c : Cpu) (mbr : Nat) (mem : Memory) : Cpu := { c with mbr := mbr, mem := mem }

/-- FETCH of the word `w` found at PC (40_cpu_cycle.md R124). PC names a cell, so PC + 1 ≤ 16 fits every WORD_WIDTH. -/
def Cpu.fetched (c : Cpu) (w : Nat) : Cpu := { c with mar := c.pc, mbr := w, ir := w, pc := c.pc + 1 }

/-- The instruction word in IR (30_encoding.md R91). -/
def Cpu.instr (c : Cpu) : InstrWord := instrWord c.ir

/-- DECODE: `MAR <- zext_16(IR[11:0])` (40_cpu_cycle.md R125). -/
def Cpu.decoded (c : Cpu) : Cpu := { c with mar := (addrField c.instr).toNat }

/-- The engine stopped, nothing else changed (40_cpu_cycle.md R121). -/
def Cpu.stopped (c : Cpu) : Cpu := { c with running := false }

/-- The fault recorded and the engine stopped (60_exceptions.md R262). -/
def Cpu.faulted (c : Cpu) (f : CpuFault) : Cpu := { c with fault := some f, running := false }

/-- One performed micro-step counted (40_cpu_cycle.md R122). -/
def Cpu.counted (c : Cpu) : Cpu := { c with currentStep := c.currentStep + 1 }

/-- A program loaded: its records, the memory, and the registers and control of 42_cpu_host_ops.md R181, R182. -/
def Cpu.launched (prog : List ProgRecord) (mem : Memory) : Cpu where
  ac := 0
  pc := 0
  ir := 0
  mar := 0
  mbr := 0
  mem := mem
  prog := prog
  running := true
  currentStep := 0
  fault := none

/-! ### State updates -/

def State.withCpu (s : State) (c : Cpu) : State := { s with cpu := c }

def State.withCache (s : State) (c : Cache) : State := { s with cache := c }

/-- The record a transaction returns (log 2). -/
def State.respond (s : State) (r : Response) : State := { s with output := some r }

def State.withRequests (s : State) (r : List Transaction) : State := { s with requests := r }

/-- `currentStep <- currentStep + 1` after a micro-step that completed (40_cpu_cycle.md R122). -/
def State.counted (s : State) : State := s.withCpu s.cpu.counted

/-! ### Raising a CPU fault -/

/-- `raise F(info)` in an EXECUTE: no register and no cell is written, `cpuFault` holds the fault, `running` is false,
and the trace record is the fault's, with empty touched sets (60_exceptions.md R262; 40_cpu_cycle.md R127, R128). -/
def raise (f : CpuFault) (s : State) : State :=
  (s.withCpu (s.cpu.faulted f)).respond (.stepped (.executeFault f) [] [])

/-- The numeric code of a CPU fault (60_exceptions.md R261). -/
def CpuFault.code : CpuFault → Nat
  | .operandRange _ _ => 1
  | .addOverflow _ _ _ => 2

/-- The numeric code of a cache fault (60_exceptions.md R261). -/
def CacheFault.code : CacheFault → Nat
  | .counterOverflow _ => 3

/-- The numeric code of a log entry that reports an error or a fault (60_exceptions.md R261). -/
def CacheRecord.code : CacheRecord → Option Nat
  | .addressRange _ => some 16
  | .counterOverflow _ => some 3
  | .access _ | .reset => none

/-- The numeric code of a step() record that reports a notice or a fault (60_exceptions.md R261). -/
def StepRecord.code : StepRecord → Option Nat
  | .stopped _ => some 32
  | .executeFault f => some f.code
  | .fetch _ _ _ | .decode _ _ _ | .execute _ _ _ _ => none

/-! ### Completing an EXECUTE -/

/-- An EXECUTE that completed with the CPU record `c`: its trace record and touched sets (40_cpu_cycle.md R128, R130). -/
def completed (op : ExecOp) (value : Option Nat) (regs : List Reg) (cells : List Nat) (c : Cpu) (s : State) : State :=
  (s.withCpu c).respond (.stepped (.execute op s.cpu.mar value c.ac) regs cells)

end Sys2Proof.Machine
end

