-- ==== Sys2Proof/Machine/HostOps.lean ====
section
/-! DEFINITION. The CPU Engine's host operations load_program and reset (42_cpu_host_ops.md). -/

namespace Sys2Proof.Machine

/-- A transaction the machine rejects with no state change (60_exceptions.md R266). -/
def refuse (r : HostRefusal) (s : State) : State := s.respond (.refused r)

/-- Words placed in the cells from `first` on (42_cpu_host_ops.md R184). -/
def placeFrom (first : Nat) : List Nat → Memory → Memory
  | [], m => m
  | w :: ws, m => placeFrom (first + 1) ws (Memory.put m first w)

/-- Cells 10 and 11 forced to 5 and 3 (42_cpu_host_ops.md R185). -/
def seed (m : Memory) : Memory := seeds.foldl (fun m p => Memory.put m p.1 p.2) m

/-- Memory after load_program: cleared or kept, then the words, then the seeds (42_cpu_host_ops.md R183 to R185). -/
def loadedMemory (clears : Bool) (words : List Nat) (m : Memory) : Memory :=
  seed (placeFrom 0 words (if clears then [] else m))

/-- The word an assembled line places in its cell. -/
def assembledWord (x : Assembled) : Nat := x.2.toNat

/-- load_program (42_cpu_host_ops.md R180 to R185). -/
def loadProgram (src : List Char) (s : State) : State :=
  match assemble src with
  | .error r => refuse r s
  | .ok items =>
    (s.withCpu (Cpu.launched (items.map Prod.fst)
      (loadedMemory s.params.loadClearsMemory (items.map assembledWord) s.cpu.mem))).respond .loaded

/-- CPU reset, in any mode (42_cpu_host_ops.md R186). -/
def cpuReset (s : State) : State := (s.withCpu .cleared).respond .cpuReset

/-- What load_program returns, `{registers, memory, program, running}` (42_cpu_host_ops.md R180). -/
structure LoadView where
  ac : Nat
  pc : Nat
  ir : Nat
  mar : Nat
  mbr : Nat
  memory : Memory
  program : List ProgRecord
  running : Bool
  deriving DecidableEq, Repr

/-- The view load_program returns, read from the state it left. -/
def State.loadView (s : State) : LoadView where
  ac := s.cpu.ac
  pc := s.cpu.pc
  ir := s.cpu.ir
  mar := s.cpu.mar
  mbr := s.cpu.mbr
  memory := s.cpu.mem
  program := s.cpu.prog
  running := s.cpu.running

end Sys2Proof.Machine
end

