-- ==== Sys2Proof/Machine/CacheEngine.lean ====
section
/-! DEFINITION. The Cache Engine: set_mapping_policy, access and reset (45_cache_engine.md). -/

namespace Sys2Proof.Machine

/-! ### Backing memory and address decomposition -/

/-- The backing memory `B`, read-only, `B[a] = a` (10_state.md R34). -/
def backing (a : CacheAddress) : BitVec 6 := a

/-- `address & 0b111` (45_cache_engine.md R213). -/
def directIndex (a : CacheAddress) : Fin 8 := (a.extractLsb' 0 3).toFin

/-- `(address >> 3) & 0b111` (45_cache_engine.md R213). -/
def directTag (a : CacheAddress) : CacheAddress := (a >>> 3) &&& 0b111

/-- `address & 0b11` (45_cache_engine.md R216). -/
def setIndex (a : CacheAddress) : Fin 4 := (a.extractLsb' 0 2).toFin

/-- `(address >> 2) & 0b1111` (45_cache_engine.md R216). -/
def setTag (a : CacheAddress) : CacheAddress := (a >>> 2) &&& 0b1111

/-- The full 6-bit address (45_cache_engine.md R220). -/
def fullTag (a : CacheAddress) : CacheAddress := a

/-! ### Lines: the hit test, the two updates, the two selectors -/

/-- `line.valid && line.tag == tag`. -/
def CacheLine.holds (l : CacheLine) (tag : CacheAddress) : Bool := l.valid && l.tag == tag

/-- A hit line's access_time refreshed, the rest kept (45_cache_engine.md R212). -/
def CacheLine.touched (l : CacheLine) (now : Nat) : CacheLine := { l with accessTime := now }

/-- The line a miss fills (45_cache_engine.md R215, R219, R223). -/
def CacheLine.filled (tag : CacheAddress) (a : CacheAddress) (now : Nat) : CacheLine := ⟨true, tag, backing a, now⟩

/-- The first line, in the scan order `order`, that holds `tag` (45_cache_engine.md R217, R221). -/
def hitLine {n : Nat} (lines : Vector CacheLine n) (order : List (Fin n)) (tag : CacheAddress) : Option (Fin n) :=
  order.find? fun i => lines[i].holds tag

/-- The first line, in the scan order `order`, that is not valid (45_cache_engine.md R222). -/
def freeLine {n : Nat} (lines : Vector CacheLine n) (order : List (Fin n)) : Option (Fin n) :=
  order.find? fun i => !lines[i].valid

/-- The line with the minimum access_time, starting from `first` and scanning `rest` with a strict comparison, so that
the first minimum is kept (45_cache_engine.md R218, R222). -/
def oldestLine {n : Nat} (lines : Vector CacheLine n) (first : Fin n) (rest : List (Fin n)) : Fin n :=
  rest.foldl (fun victim i => if lines[i].accessTime < lines[victim].accessTime then i else victim) first

/-- The two ways in scan order (45_cache_engine.md R217). -/
def wayOrder : List (Fin 2) := [0, 1]

/-- The eight lines in scan order (45_cache_engine.md R221). -/
def lineOrder : List (Fin 8) := [0, 1, 2, 3, 4, 5, 6, 7]

/-- The victim way of a set on a miss: by access_time alone (45_cache_engine.md R218). -/
def victimWay (ways : Vector CacheLine 2) : Fin 2 := oldestLine ways 0 [1]

/-- The victim line of the fully-associative cache and why: a free line first, else the oldest
(45_cache_engine.md R222). -/
def victimLine (lines : Vector CacheLine 8) : Fin 8 × FillReason :=
  match freeLine lines lineOrder with
  | some i => (i, .free)
  | none => (oldestLine lines 0 [1, 2, 3, 4, 5, 6, 7], .lru)

/-! ### Lookup and replacement under each policy -/

/-- What an accepted access did to the lines, with the fields of its record (45_cache_engine.md R232). -/
structure LineOutcome where
  store : CacheStore
  index : Option Nat
  tag : CacheAddress
  hit : Bool
  position : Position
  fill : Option Fill
  data : BitVec 6
  deriving DecidableEq, Repr

/-- The `fill` field for the line `l` about to be replaced (45_cache_engine.md R232). -/
def fillOf (reason : FillReason) (l : CacheLine) : Option Fill := some ⟨reason, l.valid, l.tag⟩

/-- Direct mapping (45_cache_engine.md R213 to R215). -/
def accessDirect (lines : Vector CacheLine 8) (a : CacheAddress) (now : Nat) : LineOutcome :=
  let i := directIndex a
  let tag := directTag a
  let old := lines[i]
  let hit := old.holds tag
  let new := if hit then old.touched now else .filled tag a now
  { store := .direct (lines.set i new), index := some i, tag := tag, hit := hit, position := .line i,
    fill := if hit then none else fillOf .direct old, data := new.data }

/-- Set-associative mapping (45_cache_engine.md R216 to R219). -/
def accessSet (sets : Vector (Vector CacheLine 2) 4) (a : CacheAddress) (now : Nat) : LineOutcome :=
  let k := setIndex a
  let tag := setTag a
  let ways := sets[k]
  match hitLine ways wayOrder tag with
  | some w =>
    let new := ways[w].touched now
    { store := .setAssociative (sets.set k (ways.set w new)), index := some k, tag := tag, hit := true,
      position := .way k w, fill := none, data := new.data }
  | none =>
    let w := victimWay ways
    let old := ways[w]
    let new : CacheLine := .filled tag a now
    { store := .setAssociative (sets.set k (ways.set w new)), index := some k, tag := tag, hit := false,
      position := .way k w, fill := fillOf (if old.valid then .lru else .free) old, data := new.data }

/-- Fully-associative mapping (45_cache_engine.md R220 to R223). -/
def accessFull (lines : Vector CacheLine 8) (a : CacheAddress) (now : Nat) : LineOutcome :=
  let tag := fullTag a
  match hitLine lines lineOrder tag with
  | some i =>
    let new := lines[i].touched now
    { store := .fullyAssociative (lines.set i new), index := none, tag := tag, hit := true, position := .line i,
      fill := none, data := new.data }
  | none =>
    let victim := victimLine lines
    let old := lines[victim.1]
    let new : CacheLine := .filled tag a now
    { store := .fullyAssociative (lines.set victim.1 new), index := none, tag := tag, hit := false,
      position := .line victim.1, fill := fillOf victim.2 old, data := new.data }

/-- The dispatch on the policy in force (45_cache_engine.md R210, step 4). -/
def accessStore (store : CacheStore) (a : CacheAddress) (now : Nat) : LineOutcome :=
  match store with
  | .direct lines => accessDirect lines a now
  | .setAssociative sets => accessSet sets a now
  | .fullyAssociative lines => accessFull lines a now

/-! ### The transactions -/

/-- The last value of a counter, 2^CTR_W − 1 (45_cache_engine.md R211). -/
def lastCount (ctrWidth : Nat) : Nat := 2 ^ ctrWidth - 1

/-- Whether the range check admits an address (45_cache_engine.md R211). -/
def admits (address : Int) : Bool := decide (0 ≤ address) && decide (address < 64)

/-- An admitted address as 6 bits. -/
def admitted (address : Int) : CacheAddress := BitVec.ofNat 6 address.toNat

/-- The record of an accepted access, from what it did and the counters after it (45_cache_engine.md R232). -/
def accessRecord (policy : Policy) (address : Int) (o : LineOutcome) (accesses hits : Nat) : AccessRecord where
  policy := policy
  address := address
  index := o.index
  tag := o.tag
  hit := o.hit
  position := o.position
  fill := o.fill
  data := o.data
  accessCount := accesses
  hitCount := hits

/-- An access past the range and counter checks: count it, look up, replace, record
(45_cache_engine.md R210 steps 3 to 6, R211, R212). -/
def acceptAccess (address : Int) (s : State) : State :=
  let c := s.cache
  let now := c.accessCount + 1
  let o := accessStore c.store (admitted address) now
  let hits := if o.hit then c.hitCount + 1 else c.hitCount
  let r : CacheRecord := .access (accessRecord c.store.policy address o now hits)
  (s.withCache { c with store := o.store, accessCount := now, hitCount := hits, log := c.log ++ [r] }).respond
    (.accessed o.hit r)

/-- access(address) in its order of checks (45_cache_engine.md R210, R211; 60_exceptions.md R263, R265). -/
def access (address : Int) (s : State) : State :=
  let c := s.cache
  if c.fault ≠ none then refuse .cacheHalted s
  else if admits address = false then
    (s.withCache { c with log := c.log ++ [.addressRange address] }).respond (.accessError (.addressRange address))
  else if c.accessCount = lastCount s.params.ctrWidth then
    (s.withCache { c with
      log := c.log ++ [.counterOverflow address], fault := some (.counterOverflow address) }).respond
      (.accessFault (.counterOverflow address))
  else acceptAccess address s

/-- The cache record under a policy newly set, its log kept (45_cache_engine.md R200). -/
def Cache.configured (c : Cache) (p : Policy) : Cache :=
  { c with store := .cleared p, accessCount := 0, hitCount := 0, fault := none }

/-- set_mapping_policy(p) (45_cache_engine.md R200, R201). -/
def setMappingPolicy (p : Policy) (s : State) : State := (s.withCache (s.cache.configured p)).respond .policySet

/-- Cache reset: set_mapping_policy with the policy in force, and the log cleared to one reset marker
(45_cache_engine.md R230). -/
def cacheReset (s : State) : State :=
  (s.withCache { s.cache.configured s.cache.store.policy with log := [.reset] }).respond .cacheReset

end Sys2Proof.Machine
end

