-- ==== Sys2Proof/Machine/Cycle.lean ====
section
/-! DEFINITION. The stop test and the FETCH and DECODE micro-steps (40_cpu_cycle.md R121 to R125). -/

namespace Sys2Proof.Machine

/-- `phase = currentStep mod 3` (40_cpu_cycle.md R122). -/
def Cpu.phase (c : Cpu) : Phase :=
  match c.currentStep % 3 with
  | 0 => .fetch
  | 1 => .decode
  | _ => .execute

/-- The observable mode (10_state.md R27). -/
def Cpu.mode (c : Cpu) : Mode :=
  if c.running then
    match c.phase with
    | .fetch => .fetch
    | .decode => .decode
    | .execute => .execute
  else .stopped

/-- `PC >= progLen`. -/
def Cpu.exhausted (c : Cpu) : Bool := decide (c.progLen ≤ c.pc)

/-- The stop test of 40_cpu_cycle.md R121, or of R123 where `stopCheckEveryMicroStep` is false. -/
def State.stops (s : State) : Bool :=
  !s.cpu.running || (s.cpu.exhausted && (s.params.stopCheckEveryMicroStep || decide (s.cpu.phase = .fetch)))

/-- The reason the STOPPED notice names (40_cpu_cycle.md R121). -/
def Cpu.stopReason (c : Cpu) : StopReason := if c.running then .pcExhausted else .notRunning

/-- A step() that stops: `running <- false`, no other change, the STOPPED notice (40_cpu_cycle.md R121). -/
def stopEngine (s : State) : State :=
  (s.withCpu s.cpu.stopped).respond (.stepped (.stopped s.cpu.stopReason) [] [])

/-- FETCH (40_cpu_cycle.md R124), its record and touched sets (R128, R130). -/
def fetchMicroStep (s : State) : Host.Outcome State Fault Refusal :=
  match Memory.read s.cpu.mem s.cpu.pc with
  | none => .fault (.fetchOutsideMemory s.cpu.pc)
  | some w =>
    .next ((s.withCpu (s.cpu.fetched w)).respond
      (.stepped (.fetch s.cpu.pc w (s.cpu.fetched w).pc) [.mar, .mbr, .ir, .pc] [s.cpu.pc]))

/-- DECODE (40_cpu_cycle.md R125), its record and touched sets (R128, R130). -/
def decodeMicroStep (s : State) : State :=
  (s.withCpu s.cpu.decoded).respond
    (.stepped (.decode (opcodeField s.cpu.instr) (addrField s.cpu.instr) (spelling s.cpu.instr)) [.mar, .ir] [])

end Sys2Proof.Machine
end

