-- ==== Sys2Proof/Machine/Flags.lean ====
section
/-! DEFINITION. The sum of ADD, the width it has to fit and its overflow (41_cpu_instructions.md R157; 00_scope.md R8).
The CPU has no condition codes: ADD writes no carry, overflow, zero or sign flag (10_state.md R29). -/

namespace Sys2Proof.Machine

/-- Whether a word of this width holds the number: at most 2^WORD_WIDTH − 1 (00_scope.md R8). -/
def fitsWidth : WordWidth → Nat → Bool
  | .bits n, v => decide (v < 2 ^ (16 + n))
  | .unbounded, _ => true

/-- The number modulo 2^WORD_WIDTH. -/
def wrapToWidth : WordWidth → Nat → Nat
  | .bits n, v => v % 2 ^ (16 + n)
  | .unbounded, v => v

/-- The exact, unbounded sum of two unsigned words. -/
def exactSum (a b : Nat) : Nat := a + b

/-- What ADD writes to AC, or none where it raises ADD_OVERFLOW. -/
def addResult (p : Params) (a b : Nat) : Option Nat :=
  if fitsWidth p.wordWidth (exactSum a b) then some (exactSum a b)
  else
    match p.addOverflow with
    | .fault => none
    | .wrap => some (wrapToWidth p.wordWidth (exactSum a b))
    | .unbounded => some (exactSum a b)

end Sys2Proof.Machine
end

