-- ==== Sys2Proof/Machine/Operands.lean ====
section
/-! DEFINITION. The one operand form, absolute direct (41_cpu_instructions.md R160), with the operand check of R150.
EXECUTE takes the address from MAR, where DECODE put it (40_cpu_cycle.md R126; log 11). -/

namespace Sys2Proof.Machine

/-- The effective address of the EXECUTE micro-step: MAR. -/
def Cpu.operandAddress (c : Cpu) : Nat := c.mar

/-- `MemRead(MAR, 1)` after the check of R150; none where the check raises. -/
def Cpu.readOperand (c : Cpu) : Option Nat := Memory.read c.mem c.operandAddress

/-- `MemWrite(MAR, 1, v)` after the check of R150; none where the check raises. -/
def Cpu.writeOperand (c : Cpu) (v : Nat) : Option Memory := Memory.write c.mem c.operandAddress v

/-- `raise OPERAND_RANGE({opcode: IR[15:12], addr: MAR})` (41_cpu_instructions.md R150). -/
def raiseOperandRange (s : State) : State := raise (.operandRange (opcodeField s.cpu.instr) s.cpu.mar) s

end Sys2Proof.Machine
end

