-- ==== Sys2Proof/Machine/Arithmetic.lean ====
section
/-! DEFINITION. The EXECUTE micro-step of ADD (41_cpu_instructions.md R157). -/

namespace Sys2Proof.Machine

/-- ADD: `MBR <- MemRead(MAR, 1); AC <- AC + MBR`, OPERAND_RANGE checked before ADD_OVERFLOW
(41_cpu_instructions.md R157; 60_exceptions.md R265). -/
def execAdd (_addr : OperandField) (s : State) : Host.Outcome State Fault Refusal :=
  match s.cpu.readOperand with
  | none => .next (raiseOperandRange s)
  | some v =>
    match addResult s.params s.cpu.ac v with
    | none => .next (raise (.addOverflow s.cpu.ac v (exactSum s.cpu.ac v)) s)
    | some r => .next (completed .add (some v) [.mbr, .ac] [s.cpu.operandAddress] (s.cpu.withMbrAc v r) s)

end Sys2Proof.Machine
end

