-- ==== Sys2Proof/Machine/LoadStore.lean ====
section
/-! DEFINITION. The EXECUTE micro-step of LOAD and STORE (41_cpu_instructions.md R150 to R156). -/

namespace Sys2Proof.Machine

/-- LOAD: `MBR <- MemRead(MAR, 1); AC <- MBR` (41_cpu_instructions.md R152). The operand address is in MAR (log 11). -/
def execLoad (_addr : OperandField) (s : State) : Host.Outcome State Fault Refusal :=
  match s.cpu.readOperand with
  | none => .next (raiseOperandRange s)
  | some v => .next (completed .load (some v) [.mbr, .ac] [s.cpu.operandAddress] (s.cpu.withMbrAc v v) s)

/-- STORE: `MBR <- AC; MemWrite(MAR, 1, MBR)` (41_cpu_instructions.md R155). -/
def execStore (_addr : OperandField) (s : State) : Host.Outcome State Fault Refusal :=
  match s.cpu.writeOperand s.cpu.ac with
  | none => .next (raiseOperandRange s)
  | some m =>
    .next (completed .store (some s.cpu.ac) [.mbr] [s.cpu.operandAddress] (s.cpu.withMbrMem s.cpu.ac m) s)

end Sys2Proof.Machine
end

