-- ==== Sys2Proof/Machine/Nop.lean ====
section
/-! DEFINITION. The EXECUTE micro-step of the unassigned opcodes (41_cpu_instructions.md R158): no register or cell
changes and no range check is made. -/

namespace Sys2Proof.Machine

/-- The silent no-op, whose record names the address and no value (41_cpu_instructions.md R158; 40_cpu_cycle.md R130). -/
def noOperation (s : State) : State := completed .nop none [] [] s.cpu s

/-- Opcode 0x0 (30_encoding.md R94; 41_cpu_instructions.md R158). -/
def execNop0 (_addr : OperandField) (s : State) : Host.Outcome State Fault Refusal := .next (noOperation s)

/-- Opcode 0x4 (30_encoding.md R94; 41_cpu_instructions.md R158). -/
def execNop4 (_addr : OperandField) (s : State) : Host.Outcome State Fault Refusal := .next (noOperation s)

/-- Opcode 0x5 (30_encoding.md R94; 41_cpu_instructions.md R158). -/
def execNop5 (_addr : OperandField) (s : State) : Host.Outcome State Fault Refusal := .next (noOperation s)

/-- Opcode 0x6 (30_encoding.md R94; 41_cpu_instructions.md R158). -/
def execNop6 (_addr : OperandField) (s : State) : Host.Outcome State Fault Refusal := .next (noOperation s)

/-- Opcode 0x7 (30_encoding.md R94; 41_cpu_instructions.md R158). -/
def execNop7 (_addr : OperandField) (s : State) : Host.Outcome State Fault Refusal := .next (noOperation s)

/-- Opcode 0x8 (30_encoding.md R94; 41_cpu_instructions.md R158). -/
def execNop8 (_addr : OperandField) (s : State) : Host.Outcome State Fault Refusal := .next (noOperation s)

/-- Opcode 0x9 (30_encoding.md R94; 41_cpu_instructions.md R158). -/
def execNop9 (_addr : OperandField) (s : State) : Host.Outcome State Fault Refusal := .next (noOperation s)

/-- Opcode 0xA (30_encoding.md R94; 41_cpu_instructions.md R158). -/
def execNopA (_addr : OperandField) (s : State) : Host.Outcome State Fault Refusal := .next (noOperation s)

/-- Opcode 0xB (30_encoding.md R94; 41_cpu_instructions.md R158). -/
def execNopB (_addr : OperandField) (s : State) : Host.Outcome State Fault Refusal := .next (noOperation s)

/-- Opcode 0xC (30_encoding.md R94; 41_cpu_instructions.md R158). -/
def execNopC (_addr : OperandField) (s : State) : Host.Outcome State Fault Refusal := .next (noOperation s)

/-- Opcode 0xD (30_encoding.md R94; 41_cpu_instructions.md R158). -/
def execNopD (_addr : OperandField) (s : State) : Host.Outcome State Fault Refusal := .next (noOperation s)

/-- Opcode 0xE (30_encoding.md R94; 41_cpu_instructions.md R158). -/
def execNopE (_addr : OperandField) (s : State) : Host.Outcome State Fault Refusal := .next (noOperation s)

/-- Opcode 0xF (30_encoding.md R94; 41_cpu_instructions.md R158). -/
def execNopF (_addr : OperandField) (s : State) : Host.Outcome State Fault Refusal := .next (noOperation s)

end Sys2Proof.Machine
end

