-- ==== Sys2Proof/Machine/Dispatch.lean ====
section
/-! DEFINITION. The EXECUTE dispatch (40_cpu_cycle.md R126): one arm for each row of spec/opcode_table.json. -/

namespace Sys2Proof.Machine

def exec (i : Instr) (s : State) : Host.Outcome State Fault Refusal :=
  match i with
  | .load addr => Sys2Proof.Machine.execLoad addr s
  | .store addr => Sys2Proof.Machine.execStore addr s
  | .add addr => Sys2Proof.Machine.execAdd addr s
  | .nop0 addr => Sys2Proof.Machine.execNop0 addr s
  | .nop4 addr => Sys2Proof.Machine.execNop4 addr s
  | .nop5 addr => Sys2Proof.Machine.execNop5 addr s
  | .nop6 addr => Sys2Proof.Machine.execNop6 addr s
  | .nop7 addr => Sys2Proof.Machine.execNop7 addr s
  | .nop8 addr => Sys2Proof.Machine.execNop8 addr s
  | .nop9 addr => Sys2Proof.Machine.execNop9 addr s
  | .nopA addr => Sys2Proof.Machine.execNopA addr s
  | .nopB addr => Sys2Proof.Machine.execNopB addr s
  | .nopC addr => Sys2Proof.Machine.execNopC addr s
  | .nopD addr => Sys2Proof.Machine.execNopD addr s
  | .nopE addr => Sys2Proof.Machine.execNopE addr s
  | .nopF addr => Sys2Proof.Machine.execNopF addr s

end Sys2Proof.Machine
end

