-- ==== Sys2Proof/Machine/Transactions.lean ====
section
/-! DEFINITION. The transactions of 10_state.md R40, one of them a step() of the CPU Engine (40_cpu_cycle.md R120),
and how an instruction word is put where the next EXECUTE takes it. -/

namespace Sys2Proof.Machine

/-- `currentStep` counts a micro-step that completed without a fault (40_cpu_cycle.md R122, R127). A fault leaves
`running` false, and no EXECUTE that completes changes it. -/
def countUnlessFaulted (s : State) : State := if s.cpu.running then s.counted else s

/-- EXECUTE: the instruction in IR, dispatched on its opcode, then counted (40_cpu_cycle.md R122, R126, R127). -/
def executeMicroStep (s : State) : Host.Outcome State Fault Refusal :=
  match exec (decodeWord s.cpu.instr) s with
  | .next t => .next (countUnlessFaulted t)
  | .fault r => .fault r
  | .refused r => .refused r

/-- FETCH, counted (40_cpu_cycle.md R122, R124). -/
def countedFetch (s : State) : Host.Outcome State Fault Refusal :=
  match fetchMicroStep s with
  | .next t => .next t.counted
  | .fault r => .fault r
  | .refused r => .refused r

/-- step() (40_cpu_cycle.md R120 to R123). -/
def cpuStep (s : State) : Host.Outcome State Fault Refusal :=
  if s.stops then .next (stopEngine s)
  else
    match s.cpu.phase with
    | .fetch => countedFetch s
    | .decode => .next (decodeMicroStep s).counted
    | .execute => executeMicroStep s

/-- One transaction (10_state.md R40). -/
def perform (t : Transaction) (s : State) : Host.Outcome State Fault Refusal :=
  match t with
  | .loadProgram src => .next (loadProgram src s)
  | .step => cpuStep s
  | .cpuReset => .next (cpuReset s)
  | .setMappingPolicy p => .next (setMappingPolicy p s)
  | .access address => .next (access address s)
  | .cacheReset => .next (cacheReset s)

/-- The next transaction of the serialised caller: the oldest pending request, or a step() where none is pending
(10_state.md R41; log 1). -/
def nextTransaction (s : State) : Host.Outcome State Fault Refusal :=
  match s.requests with
  | [] => cpuStep s
  | t :: rest => perform t (s.withRequests rest)

/-- A record that fills up a program's length; an unrecognised mnemonic, so it stands for a no-op (log 13). -/
def fillerRecord : ProgRecord := ⟨['N', 'O', 'P'], none, 0⟩

/-- Filler records, one for each line from `line` on. -/
def fillerRecords (line : Nat) : Nat → List ProgRecord
  | 0 => []
  | n + 1 => { fillerRecord with sourceLine := line } :: fillerRecords (line + 1) n

/-- The cell an instruction word is placed in: PC, or 0 where the cell after PC would not be a program cell. -/
def placementCell (c : Cpu) : Nat := if c.pc < 15 then c.pc else 0

/-- `word` placed in a cell as load_program would, then fetched and decoded, so that the next step() is its EXECUTE: the
program is long enough for the stop test to let it run (40_cpu_cycle.md R121, R124, R125; log 13). -/
def placeInstruction (word : InstrWord) (s : State) : State :=
  let a := placementCell s.cpu
  let w := word.toNat
  let c := { s.cpu with
    mem := Memory.put s.cpu.mem a w, prog := fillerRecords 0 (a + 2), running := true, fault := none,
    pc := a, currentStep := 3 * a + 2 }
  { s with cpu := (c.fetched w).decoded, requests := [] }

end Sys2Proof.Machine
end

