-- ==== Sys2Proof/Machine/Step.lean ====
section
/-! DEFINITION. The step of the machine: one host transaction (00_scope.md R6; log 1), and the state in which the next
step runs a given instruction word (log 13). -/

namespace Sys2Proof.Machine

/-- One transaction (00_scope.md R6). -/
def step (s : State) : Host.Outcome State Fault Refusal := nextTransaction s

/-- The state whose next step runs the instruction whose bits are `w` (log 13). -/
def State.withFetchWord (s : State) (nbits w : Nat) : State :=
  placeInstruction (BitVec.ofNat 16 (w % 2 ^ nbits)) s

end Sys2Proof.Machine
end

