-- ==== Sys2Proof/Safety.lean ====
section
/-! DEFINITION. What holds of the CAS core in every state a run can reach, and where the next step() stands. A state
with `cpuFault` or `cacheFault` set is faulted, never a normal end of run (60_exceptions.md R262, R263). -/

namespace Sys2Proof.Machine

/-- No engine holds a fault (60_exceptions.md R262, R263). -/
def State.unfaulted (s : State) : Prop := s.cpu.fault = none ∧ s.cache.fault = none

/-- No transaction is pending, the stop test lets the next step() perform a micro-step, and that one is `p`
(40_cpu_cycle.md R121, R122). -/
def State.atPhase (s : State) (p : Phase) : Prop := s.requests = [] ∧ s.stops = false ∧ s.cpu.phase = p

/-- Whether a register or cell may hold the value: it fits WORD_WIDTH, or words are unbounded (10_state.md R20, R23;
00_scope.md R8; log 5). -/
def admitsWord (p : Params) (v : Nat) : Bool :=
  fitsWidth p.wordWidth v || decide (p.addOverflow = .unbounded)

/-- Every register and every cell holds a word of the width in force (10_state.md R20, R23). -/
def Cpu.wordsFit (p : Params) (c : Cpu) : Bool :=
  admitsWord p c.ac && admitsWord p c.pc && admitsWord p c.ir && admitsWord p c.mar && admitsWord p c.mbr &&
    c.mem.all fun x => admitsWord p x.2

/-- The invariant of the CPU Engine: words within WORD_WIDTH (10_state.md R20, R23), canonical memory,
a well-formed program, PC within it (10_state.md R22, R24) and in step with currentStep (R26; 40_cpu_cycle.md R133), no fault while running (10_state.md R25,
R28), and what FETCH and DECODE leave in MAR and MBR (40_cpu_cycle.md R124, R125). -/
def Cpu.Inv (p : Params) (c : Cpu) : Prop :=
  c.wordsFit p = true ∧
  c.mem.wf = true ∧ programWf c.prog = true ∧ c.pc ≤ c.progLen ∧ c.pc = (c.currentStep + 2) / 3 ∧
  (c.running = true → c.fault = none) ∧
  (c.phase = .decode → c.mar + 1 = c.pc ∧ c.mbr = c.ir) ∧
  (c.phase = .execute → c.mar = (addrField c.instr).toNat ∧ c.mbr = c.ir)

/-- A line of the cache when `count` accesses have been counted: cleared while invalid, else filled from the address
`spelled` its tag and position spell, last touched at one of those accesses (10_state.md R31, R43; 45_cache_engine.md
R224, R225). -/
def CacheLine.Inv (count : Nat) (spelled : Nat) (l : CacheLine) : Prop :=
  if l.valid then 1 ≤ l.accessTime ∧ l.accessTime ≤ count ∧ l.data.toNat = spelled else l = .cleared

/-- Two different lines are not both valid with one access_time (45_cache_engine.md R224). -/
def CacheLine.apart (l l' : CacheLine) : Prop := l.valid = true → l'.valid = true → l.accessTime ≠ l'.accessTime

/-- Two different lines of one eligible set are not both valid with one tag (10_state.md R37). -/
def CacheLine.tagsApart (l l' : CacheLine) : Prop := l.valid = true → l'.valid = true → l.tag ≠ l'.tag

/-- The invariant of the lines under each policy when `count` accesses have been counted (10_state.md R31, R37;
45_cache_engine.md R213, R216, R220, R224, R225). -/
def CacheStore.Inv (count : Nat) : CacheStore → Prop
  | .direct lines =>
    (∀ i : Fin 8, lines[i].Inv count (lines[i].tag.toNat * 8 + i)) ∧
    (∀ i j : Fin 8, i ≠ j → lines[i].apart lines[j])
  | .setAssociative sets =>
    (∀ (k : Fin 4) (w : Fin 2), sets[k][w].Inv count (sets[k][w].tag.toNat * 4 + k)) ∧
    (∀ (k k' : Fin 4) (w w' : Fin 2), (k, w) ≠ (k', w') → sets[k][w].apart sets[k'][w']) ∧
    (∀ (k : Fin 4) (w w' : Fin 2), w ≠ w' → sets[k][w].tagsApart sets[k][w'])
  | .fullyAssociative lines =>
    (∀ i : Fin 8, lines[i].Inv count lines[i].tag.toNat) ∧
    (∀ i j : Fin 8, i ≠ j → lines[i].apart lines[j]) ∧
    (∀ i j : Fin 8, i ≠ j → lines[i].tagsApart lines[j])

/-- The invariant of the Cache Engine under CTR_W = `ctrWidth`: hit_count ≤ access_count ≤ 2^CTR_W − 1 (10_state.md R33,
R37; 45_cache_engine.md R226), a fault only at the last count (R211), and the lines' own. -/
def Cache.Inv (ctrWidth : Nat) (c : Cache) : Prop :=
  c.hitCount ≤ c.accessCount ∧ c.accessCount ≤ lastCount ctrWidth ∧
  (c.fault ≠ none → c.accessCount = lastCount ctrWidth) ∧ c.store.Inv c.accessCount

/-- A line without its access_time: what a hit leaves alone (45_cache_engine.md R212). -/
def CacheLine.content (l : CacheLine) : Bool × CacheAddress × BitVec 6 := (l.valid, l.tag, l.data)

/-- The contents of all lines in order, access_time left out. -/
def CacheStore.contents : CacheStore → List (Bool × CacheAddress × BitVec 6)
  | .direct lines => lines.toList.map CacheLine.content
  | .setAssociative sets => sets.toList.flatMap fun ways => ways.toList.map CacheLine.content
  | .fullyAssociative lines => lines.toList.map CacheLine.content

/-- The line at a position of the shape in force; none for a position of another shape (10_state.md R32;
45_cache_engine.md R232). -/
def CacheStore.lineAt : CacheStore → Position → Option CacheLine
  | .direct lines, .line i => some lines[i]
  | .setAssociative sets, .way k w => some sets[k][w]
  | .fullyAssociative lines, .line i => some lines[i]
  | .direct _, .way _ _ => none
  | .setAssociative _, .line _ => none
  | .fullyAssociative _, .way _ _ => none

/-- The next transaction is one of the CPU Engine's: load_program, step (also where none is pending) or reset
(10_state.md R40). -/
def State.cpuTurn (s : State) : Bool :=
  match s.requests with
  | [] => true
  | .loadProgram _ :: _ => true
  | .step :: _ => true
  | .cpuReset :: _ => true
  | .setMappingPolicy _ :: _ => false
  | .access _ :: _ => false
  | .cacheReset :: _ => false

/-- The next transaction is an access to `address` that the Cache Engine accepts: no fault, in range, and a count left
(45_cache_engine.md R210, R211). -/
def State.acceptsAccess (s : State) (address : Int) (rest : List Transaction) : Prop :=
  s.requests = .access address :: rest ∧ s.cache.fault = none ∧ 0 ≤ address ∧ address < 64 ∧
  s.cache.accessCount < 2 ^ s.params.ctrWidth - 1

/-- The invariant of the whole core. -/
def State.Inv (s : State) : Prop := s.cpu.Inv s.params ∧ s.cache.Inv s.params.ctrWidth

end Sys2Proof.Machine
end

