-- ==== Sys2Proof/Certificates/Slice0/Obligations.lean ====
section
/-! DEFINITION. The statements for the provers. -/

open Sys2Proof Sys2Proof.Machine

/-! ### Encoding -/

/-- Decoding an encoded instruction gives it back, with every operand (30_encoding.md R91 to R95, R103). -/
def Obligations.DecodeOfEncode : Prop := ∀ i : Instr, decodeWord (encode i) = i

/-- Encoding what a word decodes to gives the word back, so no two words decode to one instruction (R91, R95). -/
def Obligations.EncodeOfDecode : Prop := ∀ w : InstrWord, encode (decodeWord w) = w

/-- Every row of the opcode map, with every operand address (30_encoding.md R91, R93, R94). -/
def Obligations.OpcodeMapRows : Prop :=
  ∀ a : OperandField,
    decodeWord (0x1#4 ++ a) = .load a ∧ decodeWord (0x2#4 ++ a) = .store a ∧ decodeWord (0x3#4 ++ a) = .add a ∧
    decodeWord (0x0#4 ++ a) = .nop0 a ∧ decodeWord (0x4#4 ++ a) = .nop4 a ∧ decodeWord (0x5#4 ++ a) = .nop5 a ∧
    decodeWord (0x6#4 ++ a) = .nop6 a ∧ decodeWord (0x7#4 ++ a) = .nop7 a ∧ decodeWord (0x8#4 ++ a) = .nop8 a ∧
    decodeWord (0x9#4 ++ a) = .nop9 a ∧ decodeWord (0xA#4 ++ a) = .nopA a ∧ decodeWord (0xB#4 ++ a) = .nopB a ∧
    decodeWord (0xC#4 ++ a) = .nopC a ∧ decodeWord (0xD#4 ++ a) = .nopD a ∧ decodeWord (0xE#4 ++ a) = .nopE a ∧
    decodeWord (0xF#4 ++ a) = .nopF a

/-- Bits 15:12 alone select the operation (30_encoding.md R95): LOAD, STORE, ADD, or one of the no-op rows. -/
def Obligations.OpcodeBitsAloneSelect : Prop :=
  ∀ (w : InstrWord) (a : OperandField), w.extractLsb' 0 12 = a →
    (w.extractLsb' 12 4 = 0x1#4 → decodeWord w = .load a) ∧
    (w.extractLsb' 12 4 = 0x2#4 → decodeWord w = .store a) ∧
    (w.extractLsb' 12 4 = 0x3#4 → decodeWord w = .add a) ∧
    (w.extractLsb' 12 4 ≠ 0x1#4 → w.extractLsb' 12 4 ≠ 0x2#4 → w.extractLsb' 12 4 ≠ 0x3#4 →
      decodeWord w ∈ [Instr.nop0 a, .nop4 a, .nop5 a, .nop6 a, .nop7 a, .nop8 a, .nop9 a, .nopA a, .nopB a, .nopC a,
        .nopD a, .nopE a, .nopF a])

/-- The source lines of the document's round trip assemble to the words of 30_encoding.md R107. -/
def Obligations.RoundTripProgramWords : Prop :=
  assembleLine 0 "LOAD 10".toList = .ok (some (⟨"LOAD".toList, some 10, 0⟩, 0x100A)) ∧
  assembleLine 1 "ADD 11".toList = .ok (some (⟨"ADD".toList, some 11, 1⟩, 0x300B)) ∧
  assembleLine 2 "STORE 12".toList = .ok (some (⟨"STORE".toList, some 12, 2⟩, 0x200C)) ∧
  assembleLine 3 "LOAD 12".toList = .ok (some (⟨"LOAD".toList, some 12, 3⟩, 0x100C))

/-- A few words written out in the spec decode to what it says they are (30_encoding.md R97, R107; 95_test_vectors.md). -/
def Obligations.SpecWordsDecode : Prop :=
  decodeWord 0x100A = .load 10 ∧ decodeWord 0x300B = .add 11 ∧ decodeWord 0x200C = .store 12 ∧
  decodeWord 0x0005 = .nop0 5 ∧ decodeWord 0x0003 = .nop0 3 ∧ decodeWord 0x4ABC = .nop4 0xABC ∧
  decodeWord 0xF123 = .nopF 0x123

/-! ### EXECUTE -/

/-- LOAD (41_cpu_instructions.md R152): MBR and AC take the cell MAR names; with MAR ≥ 16 the fault OPERAND_RANGE. The
whole next state is given, so nothing else changes. -/
def Obligations.LoadResult : Prop :=
  ∀ (a : OperandField) (s : State),
    (s.cpu.mar < 16 → ∀ v, v = Memory.cell s.cpu.mem s.cpu.mar →
      exec (.load a) s = .next { s with
        cpu := { s.cpu with mbr := v, ac := v },
        output := some (.stepped (.execute .load s.cpu.mar (some v) v) [.mbr, .ac] [s.cpu.mar]) }) ∧
    (16 ≤ s.cpu.mar → ∀ f, f = CpuFault.operandRange (BitVec.ofNat 4 (s.cpu.ir / 2 ^ 12)) s.cpu.mar →
      exec (.load a) s = .next { s with
        cpu := { s.cpu with fault := some f, running := false },
        output := some (.stepped (.executeFault f) [] []) })

/-- STORE (41_cpu_instructions.md R155): MBR takes AC and so does the one cell MAR names; every other cell, and every
other field, is unchanged; with MAR ≥ 16 the fault OPERAND_RANGE. -/
def Obligations.StoreResult : Prop :=
  ∀ (a : OperandField) (s : State), s.cpu.mem.wf = true →
    (s.cpu.operandAddress < 16 → ∃ m : Memory,
      exec (.store a) s = .next { s with
        cpu := { s.cpu with mbr := s.cpu.ac, mem := m },
        output := some (.stepped (.execute .store s.cpu.mar (some s.cpu.ac) s.cpu.ac) [.mbr] [s.cpu.mar]) } ∧
      m.wf = true ∧ Memory.read m s.cpu.operandAddress = some s.cpu.ac ∧
      ∀ b : Nat, b ≠ s.cpu.operandAddress → Memory.read m b = Memory.read s.cpu.mem b) ∧
    (16 ≤ s.cpu.operandAddress → ∀ f, f = CpuFault.operandRange (BitVec.ofNat 4 (s.cpu.ir / 2 ^ 12)) s.cpu.mar →
      exec (.store a) s = .next { s with
        cpu := { s.cpu with fault := some f, running := false },
        output := some (.stepped (.executeFault f) [] []) })

/-- ADD (41_cpu_instructions.md R157) under every value of WORD_WIDTH and addOverflow (00_scope.md R8): the exact sum
where it is at most 2^WORD_WIDTH − 1, where WORD_WIDTH is unbounded, and under addOverflow = unbounded; else the sum
modulo 2^WORD_WIDTH or the fault ADD_OVERFLOW, by addOverflow; OPERAND_RANGE first of all. That `wrap` is modulo
2^WORD_WIDTH where WORD_WIDTH is not 16, and that `unbounded` takes unbounded words with it whatever WORD_WIDTH is, is
the model's reading of R157 and D2 (log 5). -/
def Obligations.AddResult : Prop :=
  ∀ (a : OperandField) (s : State) (v : Nat) (sum : Nat),
    v = Memory.cell s.cpu.mem s.cpu.mar → sum = s.cpu.ac + v →
    (∀ r : Nat, s.cpu.mar < 16 →
      ((r = sum ∧ ((∀ n, s.params.wordWidth = .bits n → sum < 2 ^ (16 + n)) ∨ s.params.addOverflow = .unbounded)) ∨
        (s.params.addOverflow = .wrap ∧ ∃ n, s.params.wordWidth = .bits n ∧ r = sum % 2 ^ (16 + n))) →
      exec (.add a) s = .next { s with
        cpu := { s.cpu with mbr := v, ac := r },
        output := some (.stepped (.execute .add s.cpu.mar (some v) r) [.mbr, .ac] [s.cpu.mar]) }) ∧
    (∀ n, s.cpu.mar < 16 → s.params.wordWidth = .bits n → 2 ^ (16 + n) ≤ sum → s.params.addOverflow = .fault →
      exec (.add a) s = .next { s with
        cpu := { s.cpu with fault := some (.addOverflow s.cpu.ac v sum), running := false },
        output := some (.stepped (.executeFault (.addOverflow s.cpu.ac v sum)) [] []) }) ∧
    (16 ≤ s.cpu.mar → ∀ f, f = CpuFault.operandRange (BitVec.ofNat 4 (s.cpu.ir / 2 ^ 12)) s.cpu.mar →
      exec (.add a) s = .next { s with
        cpu := { s.cpu with fault := some f, running := false },
        output := some (.stepped (.executeFault f) [] []) })

/-- Every unassigned opcode (41_cpu_instructions.md R158) changes no register and no cell, whatever MAR holds, and
step() still counts it. -/
def Obligations.UnassignedOpcodeResult : Prop :=
  ∀ (a : OperandField) (s : State) (i : Instr),
    i ∈ [Instr.nop0 a, .nop4 a, .nop5 a, .nop6 a, .nop7 a, .nop8 a, .nop9 a, .nopA a, .nopB a, .nopC a, .nopD a,
      .nopE a, .nopF a] →
    exec i s = .next { s with output := some (.stepped (.execute .nop s.cpu.mar none s.cpu.ac) [] []) } ∧
    (s.atPhase .execute → decodeWord (instrWord s.cpu.ir) = i →
      step s = .next { s with
        cpu := { s.cpu with currentStep := s.cpu.currentStep + 1 },
        output := some (.stepped (.execute .nop s.cpu.mar none s.cpu.ac) [] []) })

/-- The frame of every EXECUTE (10_state.md R21; 41_cpu_instructions.md): PC, IR, MAR, the program, currentStep, the
cache, the parameters and the pending transactions stay; AC changes only under LOAD and ADD, MBR only under an
assigned opcode, memory only under STORE. -/
def Obligations.ExecuteFrame : Prop :=
  ∀ (i : Instr) (s t : State), exec i s = .next t →
    t.cpu.pc = s.cpu.pc ∧ t.cpu.ir = s.cpu.ir ∧ t.cpu.mar = s.cpu.mar ∧ t.cpu.prog = s.cpu.prog ∧
    t.cpu.currentStep = s.cpu.currentStep ∧ t.cache = s.cache ∧ t.params = s.params ∧ t.requests = s.requests ∧
    (i.opcode ≠ 1 → i.opcode ≠ 3 → t.cpu.ac = s.cpu.ac) ∧
    (i.opcode ≠ 1 → i.opcode ≠ 2 → i.opcode ≠ 3 → t.cpu.mbr = s.cpu.mbr) ∧
    (i.opcode ≠ 2 → t.cpu.mem = s.cpu.mem)

/-- A fault in EXECUTE (40_cpu_cycle.md R127; 41_cpu_instructions.md R150): registers and memory stay, currentStep is
not counted, running is false, cpuFault and the trace record hold the fault; an ADD overflows where the exact sum
exceeds 2^WORD_WIDTH − 1 (00_scope.md R8). -/
def Obligations.ExecuteFaultAtStep : Prop :=
  ∀ s : State, s.atPhase .execute →
    (16 ≤ s.cpu.mar → s.cpu.ir / 2 ^ 12 % 16 ∈ [1, 2, 3] →
      ∀ f, f = CpuFault.operandRange (BitVec.ofNat 4 (s.cpu.ir / 2 ^ 12)) s.cpu.mar →
      step s = .next { s with
        cpu := { s.cpu with fault := some f, running := false },
        output := some (.stepped (.executeFault f) [] []) }) ∧
    (s.cpu.mar < 16 → s.cpu.ir / 2 ^ 12 % 16 = 3 → s.params.addOverflow = .fault →
      ∀ n v, s.params.wordWidth = .bits n → v = Memory.cell s.cpu.mem s.cpu.mar → 2 ^ (16 + n) ≤ s.cpu.ac + v →
      ∀ f, f = CpuFault.addOverflow s.cpu.ac v (s.cpu.ac + v) →
      step s = .next { s with
        cpu := { s.cpu with fault := some f, running := false },
        output := some (.stepped (.executeFault f) [] []) })

/-! ### The instruction cycle -/

/-- A step at EXECUTE runs the instruction IR decodes to, then counts it unless it faulted (40_cpu_cycle.md R122, R126,
R127). -/
def Obligations.StepRunsDecodedInstruction : Prop :=
  ∀ (s : State) (i : Instr), s.atPhase .execute → decodeWord (instrWord s.cpu.ir) = i →
    ∃ t, exec i s = .next t ∧ step s = .next
      (if t.cpu.running then { t with cpu := { t.cpu with currentStep := t.cpu.currentStep + 1 } } else t)

/-- FETCH (40_cpu_cycle.md R124): with progLen ≤ 16 it raises nothing. -/
def Obligations.FetchResult : Prop :=
  ∀ s : State, s.atPhase .fetch → s.cpu.progLen ≤ 16 → ∀ w, w = Memory.cell s.cpu.mem s.cpu.pc →
    step s = .next { s with
      cpu := { s.cpu with
        mar := s.cpu.pc, mbr := w, ir := w, pc := s.cpu.pc + 1, currentStep := s.cpu.currentStep + 1 },
      output := some (.stepped (.fetch s.cpu.pc w (s.cpu.pc + 1)) [.mar, .mbr, .ir, .pc] [s.cpu.pc]) }

/-- DECODE (40_cpu_cycle.md R125): MAR takes IR[11:0], zero-extended, and it raises nothing. -/
def Obligations.DecodeResult : Prop :=
  ∀ s : State, s.atPhase .decode →
    step s = .next { s with
      cpu := { s.cpu with mar := s.cpu.ir % 2 ^ 12, currentStep := s.cpu.currentStep + 1 },
      output := some (.stepped (.decode (BitVec.ofNat 4 (s.cpu.ir / 2 ^ 12)) (BitVec.ofNat 12 s.cpu.ir)
        (spelling (instrWord s.cpu.ir))) [.mar, .ir] []) }

/-- The stop test on every step() (40_cpu_cycle.md R121): a stopped or exhausted engine only clears `running` and
answers the STOPPED notice. -/
def Obligations.StopResult : Prop :=
  ∀ s : State, s.requests = [] → s.params.stopCheckEveryMicroStep = true →
    ((s.cpu.running = false ∨ s.cpu.progLen ≤ s.cpu.pc) →
      step s = .next { s with
        cpu := { s.cpu with running := false },
        output := some (.stepped (.stopped (if s.cpu.running then .pcExhausted else .notRunning)) [] []) }) ∧
    (s.cpu.running = true → s.cpu.pc < s.cpu.progLen → s.stops = false)

/-- The alternative stop test (40_cpu_cycle.md R123): with stopCheckEveryMicroStep false, PC ≥ progLen stops only
before a FETCH, and a fetched instruction still decodes. -/
def Obligations.AlternativeStopResult : Prop :=
  ∀ s : State, s.requests = [] → s.params.stopCheckEveryMicroStep = false →
    ((s.cpu.running = false ∨ (s.cpu.currentStep % 3 = 0 ∧ s.cpu.progLen ≤ s.cpu.pc)) →
      step s = .next { s with
        cpu := { s.cpu with running := false },
        output := some (.stepped (.stopped (if s.cpu.running then .pcExhausted else .notRunning)) [] []) }) ∧
    (s.cpu.running = true → (s.cpu.currentStep % 3 ≠ 0 ∨ s.cpu.pc < s.cpu.progLen) → s.stops = false)

/-- Three step() calls from a FETCH run the word at PC whole: FETCH and DECODE bring the machine to the state `d`, and
the third call is the EXECUTE of the decoded instruction there (40_cpu_cycle.md R122 to R126). -/
def Obligations.InstructionTakesThreeSteps : Prop :=
  ∀ (s d : State) (w : Nat) (i : Instr), s.atPhase .fetch → s.cpu.progLen ≤ 16 →
    (s.cpu.pc + 1 < s.cpu.progLen ∨ s.params.stopCheckEveryMicroStep = false) →
    w = Memory.cell s.cpu.mem s.cpu.pc → i = decodeWord (instrWord w) →
    d = { s with
      cpu := { s.cpu with
        mar := i.addr.toNat, mbr := w, ir := w, pc := s.cpu.pc + 1, currentStep := s.cpu.currentStep + 2 },
      output := some (.stepped (.decode i.opcode i.addr (spelling (instrWord w))) [.mar, .ir] []) } →
    ∃ t, exec i d = .next t ∧ Sys2Proof.core.run 3 s = .next
      (if t.cpu.running then { t with cpu := { t.cpu with currentStep := t.cpu.currentStep + 1 } } else t)

/-- The operand of an instruction is the absolute address in its word (30_encoding.md R92; 41_cpu_instructions.md
R160): three step() calls of LOAD n, STORE n or ADD n read or write cell n and no other. -/
def Obligations.OperandIsAbsoluteAddress : Prop :=
  ∀ (s : State) (n : OperandField), s.atPhase .fetch → s.cpu.progLen ≤ 16 → s.cpu.mem.wf = true →
    (s.cpu.pc + 1 < s.cpu.progLen ∨ s.params.stopCheckEveryMicroStep = false) → n.toNat < 16 →
    (Memory.cell s.cpu.mem s.cpu.pc = 0x1000 + n.toNat → ∃ t, Sys2Proof.core.run 3 s = .next t ∧
      t.cpu.ac = Memory.cell s.cpu.mem n.toNat ∧ t.cpu.mbr = Memory.cell s.cpu.mem n.toNat ∧
      t.cpu.mem = s.cpu.mem ∧ t.cpu.pc = s.cpu.pc + 1) ∧
    (Memory.cell s.cpu.mem s.cpu.pc = 0x2000 + n.toNat → ∃ t, Sys2Proof.core.run 3 s = .next t ∧
      t.cpu.ac = s.cpu.ac ∧ t.cpu.mbr = s.cpu.ac ∧ t.cpu.pc = s.cpu.pc + 1 ∧
      Memory.read t.cpu.mem n.toNat = some s.cpu.ac ∧
      ∀ b : Nat, b ≠ n.toNat → Memory.read t.cpu.mem b = Memory.read s.cpu.mem b) ∧
    (Memory.cell s.cpu.mem s.cpu.pc = 0x3000 + n.toNat →
      s.cpu.ac + Memory.cell s.cpu.mem n.toNat ≤ 0xFFFF → ∃ t, Sys2Proof.core.run 3 s = .next t ∧
      t.cpu.ac = s.cpu.ac + Memory.cell s.cpu.mem n.toNat ∧
      t.cpu.mbr = Memory.cell s.cpu.mem n.toNat ∧ t.cpu.mem = s.cpu.mem ∧ t.cpu.pc = s.cpu.pc + 1)

/-- A STORE to the cell at PC is seen by the next FETCH, with no operation between them, and `prog` does not change
(20_memory.md R72; 70_reset_and_hazards.md R295). -/
def Obligations.FetchSeesStore : Prop :=
  ∀ s : State, s.atPhase .execute → s.cpu.progLen ≤ 16 → s.cpu.mem.wf = true → s.cpu.pc < s.cpu.progLen →
    s.cpu.ir / 2 ^ 12 % 16 = 2 → s.cpu.mar = s.cpu.pc →
    ∃ t u, step s = .next t ∧ t.cpu.ir = s.cpu.ir ∧ step t = .next u ∧ u.cpu.ir = s.cpu.ac ∧
      u.cpu.prog = s.cpu.prog

/-- The observable mode after a step() names the next micro-step, or STOPPED after a stop or a fault (10_state.md R27;
40_cpu_cycle.md R131). -/
def Obligations.ModeAfterStep : Prop :=
  ∀ s t : State, s.requests = [] → step s = .next t →
    (s.stops = true → t.cpu.mode = .stopped) ∧
    (s.stops = false → s.cpu.mode = .fetch → t.cpu.mode = .decode) ∧
    (s.stops = false → s.cpu.mode = .decode → t.cpu.mode = .execute) ∧
    (s.stops = false → s.cpu.mode = .execute →
      t.cpu.mode = .fetch ∨ (t.cpu.mode = .stopped ∧ t.cpu.fault ≠ none))

/-- Once faulted, every later step() answers the STOPPED notice with reason NOT_RUNNING and the CPU record, cpuFault
in it, stays as it is (60_exceptions.md R262; 10_state.md R28). -/
def Obligations.FaultedEngineStaysStopped : Prop :=
  ∀ (s : State) (k : Nat), s.requests = [] → s.cpu.fault ≠ none → s.cpu.running = false →
    Sys2Proof.core.run (k + 1) s = .next { s with output := some (.stepped (.stopped .notRunning) [] []) }

/-- Only load_program and reset clear cpuFault (60_exceptions.md R262; 10_state.md R28). -/
def Obligations.OnlyReinitialisationClearsFault : Prop :=
  ∀ s t : State, step s = .next t → s.cpu.fault ≠ none → t.cpu.fault = none →
    (∃ src rest, s.requests = .loadProgram src :: rest) ∨ (∃ rest, s.requests = .cpuReset :: rest)

/-- No run of the CPU Engine is infinite (40_cpu_cycle.md R133; 10_state.md R26): from any state that meets the
invariant, 49 step() calls end with the engine stopped and at most 48 micro-steps counted. -/
def Obligations.EngineStopsWithin49Steps : Prop :=
  ∀ s : State, s.cpu.Inv s.params → s.requests = [] → ∃ t, Sys2Proof.core.run 49 s = .next t ∧ t.cpu.running = false ∧
    t.cpu.currentStep ≤ 48

/-- The micro-steps from load_program to the stop (40_cpu_cycle.md R129): with L ≥ 1 records and no fault, 3L − 2 of
them and call 3L − 1 stops; under stopCheckEveryMicroStep = false, 3L of them and call 3L + 1 stops. -/
def Obligations.MicroStepsUntilStop : Prop :=
  ∀ (s : State) (l : Nat), s.cpu.Inv s.params → s.requests = [] → s.cpu.running = true → s.cpu.currentStep = 0 →
    s.cpu.progLen = l → 1 ≤ l →
    (s.params.stopCheckEveryMicroStep = true → ∃ t, Sys2Proof.core.run (3 * l - 1) s = .next t ∧
      t.cpu.running = false ∧ (t.cpu.fault = none → t.cpu.currentStep = 3 * l - 2 ∧ t.cpu.pc = l)) ∧
    (s.params.stopCheckEveryMicroStep = false → ∃ t, Sys2Proof.core.run (3 * l + 1) s = .next t ∧
      t.cpu.running = false ∧ (t.cpu.fault = none → t.cpu.currentStep = 3 * l ∧ t.cpu.pc = l))

/-! ### Invariants -/

/-- The invariant holds at power-on, whatever the parameters (10_state.md R42, R43). -/
def Obligations.InvariantAtPowerOn : Prop := ∀ p : Params, (State.powerOn p).Inv

/-- Every step keeps the CPU Engine's invariant (10_state.md R20, R22, R23, R24, R26, R28), under every parameter. -/
def Obligations.StepKeepsCpuInvariant : Prop :=
  ∀ s t : State, s.cpu.Inv s.params → step s = .next t → t.cpu.Inv t.params

/-- Every step keeps the Cache Engine's invariant (10_state.md R33, R37; 45_cache_engine.md R224 to R226). -/
def Obligations.StepKeepsCacheInvariant : Prop :=
  ∀ s t : State, s.cache.Inv s.params.ctrWidth → step s = .next t → t.cache.Inv t.params.ctrWidth

/-- Every transaction has an outcome (93_implementation_defined.md): in a state that meets the invariant every step
answers a next state. -/
def Obligations.StepNeverStuck : Prop := ∀ s : State, s.cpu.Inv s.params → ∃ t, step s = .next t

/-- Every run from power-on, under any parameters and any list of transactions, answers a next state that meets the
invariant. -/
def Obligations.EveryRunKeepsInvariant : Prop :=
  ∀ (p : Params) (requests : List Transaction) (k : Nat), ∃ t,
    Sys2Proof.core.run k { State.powerOn p with requests := requests } = .next t ∧ t.Inv

/-- A step consumes the oldest pending transaction and changes no parameter. This rests on the model's own fields
`params` and `requests` (log 1, log 3). -/
def Obligations.StepConsumesOneRequest : Prop :=
  ∀ s t : State, step s = .next t → t.params = s.params ∧ t.requests = s.requests.tail

/-- Memory changes only by a step() that performs the EXECUTE of a STORE, by load_program or by CPU reset (10_state.md
R23). -/
def Obligations.OnlyStoreLoadAndResetWriteMemory : Prop :=
  ∀ s t : State, step s = .next t → t.cpu.mem ≠ s.cpu.mem →
    (∃ src rest, s.requests = .loadProgram src :: rest) ∨ (∃ rest, s.requests = .cpuReset :: rest) ∨
    ((s.requests = [] ∨ ∃ rest, s.requests = .step :: rest) ∧ s.stops = false ∧ s.cpu.mode = .execute ∧
      s.cpu.ir / 2 ^ 12 % 16 = 2)

/-! ### The two engines are independent -/

/-- A CPU transaction neither writes nor reads the cache (00_scope.md R2; 42_cpu_host_ops.md R190). -/
def Obligations.CpuIndependentOfCache : Prop :=
  ∀ (s t : State) (c : Cache), s.cpuTurn = true → step s = .next t →
    t.cache = s.cache ∧ step { s with cache := c } = .next { t with cache := c }

/-- A cache transaction neither writes nor reads the CPU record (00_scope.md R2; 20_memory.md R61). -/
def Obligations.CacheIndependentOfCpu : Prop :=
  ∀ (s t : State) (c : Cpu), s.cpuTurn = false → step s = .next t →
    t.cpu = s.cpu ∧ step { s with cpu := c } = .next { t with cpu := c }

/-! ### Host operations of the CPU Engine -/

/-- Power-on (70_reset_and_hazards.md R290; 10_state.md R42, R43): the CPU record of its reset, and the cache of the
initial policy, its lines cleared and its log empty. -/
def Obligations.PowerOnState : Prop :=
  ∀ p : Params,
    (State.powerOn p).cpu = ⟨0, 0, 0, 0, 0, [], [], false, 0, none⟩ ∧ (State.powerOn p).cpu.mode = .stopped ∧
    (∀ a, a < 16 → Memory.read (State.powerOn p).cpu.mem a = some 0) ∧
    (State.powerOn p).cache = ⟨.cleared p.initialPolicy, 0, 0, [], none⟩ ∧
    (CacheStore.cleared .direct = .direct (Vector.replicate 8 ⟨false, 0, 0, 0⟩) ∧
      CacheStore.cleared .setAssociative =
        .setAssociative (Vector.replicate 4 (Vector.replicate 2 ⟨false, 0, 0, 0⟩)) ∧
      CacheStore.cleared .fullyAssociative = .fullyAssociative (Vector.replicate 8 ⟨false, 0, 0, 0⟩))

/-- CPU reset (42_cpu_host_ops.md R186), in any mode. -/
def Obligations.CpuResetResult : Prop :=
  ∀ (s : State) (rest : List Transaction), s.requests = .cpuReset :: rest →
    step s = .next { s with
      cpu := ⟨0, 0, 0, 0, 0, [], [], false, 0, none⟩, requests := rest, output := some .cpuReset }

/-- CPU reset twice in a row gives the same state both times, and it is the power-on state (42_cpu_host_ops.md R187). -/
def Obligations.CpuResetIdempotent : Prop :=
  ∀ (s : State) (rest : List Transaction), s.requests = .cpuReset :: .cpuReset :: rest →
    ∃ t u, step s = .next t ∧ step t = .next u ∧ u.cpu = t.cpu ∧ ∀ p, t.cpu = (State.powerOn p).cpu

/-- load_program of an accepted text (42_cpu_host_ops.md R181 to R185; 20_memory.md R66): registers and control
initialised, the records kept, word i in cell i, then 5 and 3 in cells 10 and 11, every other cell kept or cleared by
the parameter loadClearsMemory. AssembledTextResult says what `assemble` accepts and gives. -/
def Obligations.LoadProgramResult : Prop :=
  ∀ (s : State) (src : List Char) (items : List Assembled) (rest : List Transaction),
    s.requests = .loadProgram src :: rest → assemble src = .ok items → s.cpu.mem.wf = true →
    ∃ m : Memory,
      step s = .next { s with
        cpu := ⟨0, 0, 0, 0, 0, m, items.map Prod.fst, true, 0, none⟩, requests := rest, output := some .loaded } ∧
      m.wf = true ∧ items.length ≤ 16 ∧ Memory.read m 10 = some 5 ∧ Memory.read m 11 = some 3 ∧
      ∀ a, a < 16 → a ≠ 10 → a ≠ 11 →
        (∀ x, items[a]? = some x → Memory.read m a = some x.2.toNat) ∧
        (items.length ≤ a → Memory.read m a =
          some (if s.params.loadClearsMemory then 0 else Memory.cell s.cpu.mem a))

/-- load_program of a refused text changes no state of the machine (42_cpu_host_ops.md R180; 60_exceptions.md R266). -/
def Obligations.LoadProgramRefused : Prop :=
  ∀ (s : State) (src : List Char) (r : HostRefusal) (rest : List Transaction),
    s.requests = .loadProgram src :: rest → assemble src = .error r →
    step s = .next { s with requests := rest, output := some (.refused r) }

/-- The outcome of one source line (30_encoding.md R99, R100, R102 to R105): blank, more than two tokens, and, by its
mnemonic, a missing, malformed or too large operand or the word (opcode << 12) | n; 0x0000 for a mnemonic that is not
LOAD, STORE or ADD. That more than two tokens decide before the mnemonic does is the model's reading (log 14).
SourceTextSplitting and TokenMeaning say what the tokens are and mean. -/
def Obligations.SourceLineResult : Prop :=
  ∀ (line : Nat) (text : List Char),
    (tokens text = [] ↔ ∀ c ∈ text, c = ' ' ∨ c = '\t' ∨ c = '\r') ∧
    (tokens text = [] → assembleLine line text = .ok none) ∧
    (2 < (tokens text).length → assembleLine line text = .error .badSyntax) ∧
    (∀ m, tokens text = [m] → (∀ i, mnemonicInstr (upperCase m) = some i →
      assembleLine line text = .error .missingOperand)) ∧
    (∀ m o i, tokens text = [m, o] → mnemonicInstr (upperCase m) = some i →
      (decimalValue o = none → assembleLine line text = .error .badOperand) ∧
      (∀ n, decimalValue o = some n → 4095 < n → assembleLine line text = .error .operandTooLarge) ∧
      (∀ n, decimalValue o = some n → n ≤ 4095 → ∃ w : InstrWord,
        w.toNat = (i 0).opcode.toNat * 2 ^ 12 + n ∧
        assembleLine line text = .ok (some (⟨upperCase m, some n, line⟩, w)))) ∧
    (∀ m, tokens text = [m] → mnemonicInstr (upperCase m) = none →
      assembleLine line text = .ok (some (⟨upperCase m, none, line⟩, 0))) ∧
    (∀ m o, tokens text = [m, o] → mnemonicInstr (upperCase m) = none →
      assembleLine line text = .ok (some (⟨upperCase m, decimalValue o, line⟩, 0)))

/-- A text of more than 16 non-blank lines, none refused, is refused PROGRAM_TOO_LONG, and the machine does not change
(42_cpu_host_ops.md R180; 60_exceptions.md R265). -/
def Obligations.LongProgramRefused : Prop :=
  ∀ (s : State) (src : List Char) (items : List Assembled) (rest : List Transaction),
    s.requests = .loadProgram src :: rest → assembleLines 0 (sourceLines src) = .ok items → 16 < items.length →
    step s = .next { s with requests := rest, output := some (.refused .programTooLong) }

/-! ### The Cache Engine -/

/-- set_mapping_policy(p) (45_cache_engine.md R200). -/
def Obligations.SetMappingPolicyResult : Prop :=
  ∀ (s : State) (p : Policy) (rest : List Transaction), s.requests = .setMappingPolicy p :: rest →
    step s = .next { s with
      cache := ⟨.cleared p, 0, 0, s.cache.log, none⟩, requests := rest, output := some .policySet } ∧
    (CacheStore.cleared p).policy = p

/-- set_mapping_policy(p) twice gives the state of once (45_cache_engine.md R201). -/
def Obligations.SetMappingPolicyIdempotent : Prop :=
  ∀ (s : State) (p : Policy) (rest : List Transaction),
    s.requests = .setMappingPolicy p :: .setMappingPolicy p :: rest →
    ∃ t u, step s = .next t ∧ step t = .next u ∧ u.cache = t.cache ∧ t.cache.store = .cleared p ∧
      t.cache.accessCount = 0 ∧ t.cache.hitCount = 0 ∧ u.cpu = t.cpu

/-- Cache reset (45_cache_engine.md R230): the policy in force set again, and the log one reset marker. -/
def Obligations.CacheResetResult : Prop :=
  ∀ (s : State) (rest : List Transaction), s.requests = .cacheReset :: rest →
    step s = .next { s with
      cache := ⟨.cleared s.cache.store.policy, 0, 0, [.reset], none⟩, requests := rest,
      output := some .cacheReset }

/-- Cache reset twice in a row gives identical states (45_cache_engine.md R231). -/
def Obligations.CacheResetIdempotent : Prop :=
  ∀ (s : State) (rest : List Transaction), s.requests = .cacheReset :: .cacheReset :: rest →
    ∃ t u, step s = .next t ∧ step t = .next u ∧ u.cache = t.cache ∧
      t.cache = ⟨.cleared s.cache.store.policy, 0, 0, [.reset], none⟩

/-- An access out of range (45_cache_engine.md R211): the ERROR record is logged and returned, nothing else changes,
even at the last count. -/
def Obligations.AccessOutOfRange : Prop :=
  ∀ (s : State) (address : Int) (rest : List Transaction), s.requests = .access address :: rest →
    s.cache.fault = none → (address < 0 ∨ 64 ≤ address) →
    step s = .next { s with
      cache := { s.cache with log := s.cache.log ++ [.addressRange address] }, requests := rest,
      output := some (.accessError (.addressRange address)) }

/-- The cache fault (60_exceptions.md R263): cacheFault and the log record, no line, counter or policy; then every
access is refused with no change until set_mapping_policy or reset clears it (45_cache_engine.md R210; 60_exceptions.md
R266). That cacheFault keeps the address is the model's reading of R36 against R261 and R263 (log 18), and that a refused
access logs nothing its reading of R35 against R266 (log 19). -/
def Obligations.CacheFaultEffect : Prop :=
  ∀ (s : State) (address : Int) (rest : List Transaction),
    (s.requests = .access address :: rest → s.cache.fault = none → 0 ≤ address → address < 64 →
      s.cache.accessCount = 2 ^ s.params.ctrWidth - 1 →
      step s = .next { s with
        cache := { s.cache with
          log := s.cache.log ++ [.counterOverflow address], fault := some (.counterOverflow address) },
        requests := rest, output := some (.accessFault (.counterOverflow address)) }) ∧
    (s.requests = .access address :: rest → s.cache.fault ≠ none →
      step s = .next { s with requests := rest, output := some (.refused .cacheHalted) }) ∧
    (∀ t : State, step s = .next t → s.cache.fault ≠ none →
      (t.cache.fault = none ↔ (∃ p, s.requests.head? = some (.setMappingPolicy p)) ∨
        s.requests.head? = some .cacheReset))

/-- An accepted access (45_cache_engine.md R226, R227; 10_state.md R35) counts itself, counts a hit exactly when it
answers one, and appends the one record it answers to the log. -/
def Obligations.AcceptedAccessCounts : Prop :=
  ∀ (s : State) (address : Int) (rest : List Transaction), s.acceptsAccess address rest →
    ∃ t hit r, step s = .next t ∧ t.output = some (.accessed hit r) ∧ t.cache.log = s.cache.log ++ [r] ∧
      t.cache.accessCount = s.cache.accessCount + 1 ∧
      t.cache.hitCount = (if hit then s.cache.hitCount + 1 else s.cache.hitCount) ∧ t.cache.fault = none ∧
      t.cache.store.policy = s.cache.store.policy ∧ t.requests = rest

/-- Direct mapping (45_cache_engine.md R212 to R215): the one candidate line is address mod 8, the tag address / 8; a
hit refreshes its access_time, a miss overwrites it; no other line changes. AccessRecordFields says what the record `r`
holds. -/
def Obligations.DirectAccessResult : Prop :=
  ∀ (s : State) (address : Int) (rest : List Transaction) (lines : Vector CacheLine 8) (i : Fin 8),
    s.acceptsAccess address rest → s.cache.store = .direct lines → (i.val : Int) = address % 8 →
    ∃ (t : State) (r : AccessRecord) (lines' : Vector CacheLine 8), step s = .next t ∧
      t.cache.store = .direct lines' ∧ r.position = .line i ∧ (∀ j : Fin 8, j ≠ i → lines'[j] = lines[j]) ∧
      (if lines[i].valid = true ∧ (lines[i].tag.toNat : Int) = address / 8 then
        t.output = some (.accessed true (.access r)) ∧ t.cache.hitCount = s.cache.hitCount + 1 ∧
        lines'[i] = { lines[i] with accessTime := s.cache.accessCount + 1 }
      else
        t.output = some (.accessed false (.access r)) ∧ t.cache.hitCount = s.cache.hitCount ∧ lines'[i].valid = true ∧
        (lines'[i].tag.toNat : Int) = address / 8 ∧ (lines'[i].data.toNat : Int) = address ∧
        lines'[i].accessTime = s.cache.accessCount + 1)

/-- Set-associative mapping (45_cache_engine.md R212, R216 to R219): set address mod 4, tag address / 4; the lowest way
that holds the tag is refreshed, else the way with the least access_time, way 0 on a tie, is overwritten; no other line
changes. AccessRecordFields says what the record `r` holds. -/
def Obligations.SetAssociativeAccessResult : Prop :=
  ∀ (s : State) (address : Int) (rest : List Transaction) (sets : Vector (Vector CacheLine 2) 4) (k : Fin 4),
    s.acceptsAccess address rest → s.cache.store = .setAssociative sets → (k.val : Int) = address % 4 →
    ∃ (t : State) (r : AccessRecord) (sets' : Vector (Vector CacheLine 2) 4) (w : Fin 2), step s = .next t ∧
      t.cache.store = .setAssociative sets' ∧ r.position = .way k w ∧
      (∀ j : Fin 4, j ≠ k → sets'[j] = sets[j]) ∧ (∀ v : Fin 2, v ≠ w → sets'[k][v] = sets[k][v]) ∧
      (if ∃ v : Fin 2, sets[k][v].valid = true ∧ (sets[k][v].tag.toNat : Int) = address / 4 then
        t.output = some (.accessed true (.access r)) ∧ t.cache.hitCount = s.cache.hitCount + 1 ∧
        (sets[k][w].valid = true ∧ (sets[k][w].tag.toNat : Int) = address / 4) ∧
        (∀ v : Fin 2, v < w → ¬ (sets[k][v].valid = true ∧ (sets[k][v].tag.toNat : Int) = address / 4)) ∧
        sets'[k][w] = { sets[k][w] with accessTime := s.cache.accessCount + 1 }
      else
        t.output = some (.accessed false (.access r)) ∧ t.cache.hitCount = s.cache.hitCount ∧
        (w = 1 ↔ sets[k][(1 : Fin 2)].accessTime < sets[k][(0 : Fin 2)].accessTime) ∧ sets'[k][w].valid = true ∧
        (sets'[k][w].tag.toNat : Int) = address / 4 ∧ (sets'[k][w].data.toNat : Int) = address ∧
        sets'[k][w].accessTime = s.cache.accessCount + 1)

/-- Fully-associative mapping (45_cache_engine.md R212, R220 to R223): the first line that holds the address is
refreshed, else the first free line, else the first line with the least access_time, is overwritten; no other line
changes. AccessRecordFields says what the record `r` holds. -/
def Obligations.FullyAssociativeAccessResult : Prop :=
  ∀ (s : State) (address : Int) (rest : List Transaction) (lines : Vector CacheLine 8),
    s.acceptsAccess address rest → s.cache.store = .fullyAssociative lines →
    ∃ (t : State) (r : AccessRecord) (lines' : Vector CacheLine 8) (i : Fin 8), step s = .next t ∧
      t.cache.store = .fullyAssociative lines' ∧ r.position = .line i ∧
      (∀ j : Fin 8, j ≠ i → lines'[j] = lines[j]) ∧
      (if ∃ j : Fin 8, lines[j].valid = true ∧ (lines[j].tag.toNat : Int) = address then
        t.output = some (.accessed true (.access r)) ∧ t.cache.hitCount = s.cache.hitCount + 1 ∧
        (lines[i].valid = true ∧ (lines[i].tag.toNat : Int) = address) ∧
        (∀ j : Fin 8, j < i → ¬ (lines[j].valid = true ∧ (lines[j].tag.toNat : Int) = address)) ∧
        lines'[i] = { lines[i] with accessTime := s.cache.accessCount + 1 }
      else
        t.output = some (.accessed false (.access r)) ∧ t.cache.hitCount = s.cache.hitCount ∧
        ((∃ j : Fin 8, lines[j].valid = false) →
          lines[i].valid = false ∧ ∀ j : Fin 8, j < i → lines[j].valid = true) ∧
        ((∀ j : Fin 8, lines[j].valid = true) →
          (∀ j : Fin 8, lines[i].accessTime ≤ lines[j].accessTime) ∧
          ∀ j : Fin 8, j < i → lines[i].accessTime < lines[j].accessTime) ∧
        lines'[i].valid = true ∧ (lines'[i].tag.toNat : Int) = address ∧
        (lines'[i].data.toNat : Int) = address ∧ lines'[i].accessTime = s.cache.accessCount + 1)

/-- Replacement is exact LRU (45_cache_engine.md R224): in a state that meets the invariant, the line a miss evicts
from a full eligible set was touched before every other line of that set. -/
def Obligations.EvictionIsLeastRecentlyUsed : Prop :=
  ∀ (s t : State) (address : Int) (rest : List Transaction) (r : CacheRecord), s.cache.Inv s.params.ctrWidth →
    s.acceptsAccess address rest → step s = .next t → t.output = some (.accessed false r) →
    (∀ lines lines', s.cache.store = .fullyAssociative lines → t.cache.store = .fullyAssociative lines' →
      (∀ j : Fin 8, lines[j].valid = true) →
      ∃ i : Fin 8, lines'[i] ≠ lines[i] ∧ ∀ j : Fin 8, j ≠ i →
        lines'[j] = lines[j] ∧ lines[i].accessTime < lines[j].accessTime) ∧
    (∀ (sets sets' : Vector (Vector CacheLine 2) 4) (k : Fin 4), s.cache.store = .setAssociative sets →
      t.cache.store = .setAssociative sets' → (k.val : Int) = address % 4 →
      (∀ w : Fin 2, sets[k][w].valid = true) →
      ∃ w : Fin 2, sets'[k][w] ≠ sets[k][w] ∧ ∀ v : Fin 2, v ≠ w →
        sets'[k][v] = sets[k][v] ∧ sets[k][w].accessTime < sets[k][v].accessTime)

/-- Two accesses to one address in a row, under any policy (20_memory.md R74; 95_test_vectors.md L1-2): the second is a
hit and changes no line's stored data. -/
def Obligations.RepeatedAccessHits : Prop :=
  ∀ (s : State) (address : Int) (rest : List Transaction), s.acceptsAccess address (.access address :: rest) →
    s.cache.accessCount + 2 < 2 ^ s.params.ctrWidth →
    ∃ t u r, step s = .next t ∧ step t = .next u ∧ u.output = some (.accessed true r) ∧
      u.cache.store.contents = t.cache.store.contents

/-- Direct conflict eviction (95_test_vectors.md L1-3; 45_cache_engine.md R213 to R215): of two different addresses
with the same low three bits, accessing the first, then the second, then the first again ends in a miss. -/
def Obligations.DirectConflictEvicts : Prop :=
  ∀ (s : State) (a b : Int) (rest : List Transaction) (lines : Vector CacheLine 8),
    s.acceptsAccess a (.access b :: .access a :: rest) → s.cache.accessCount + 3 < 2 ^ s.params.ctrWidth →
    s.cache.store = .direct lines → 0 ≤ b → b < 64 → a ≠ b → a % 8 = b % 8 →
    ∃ t r, Sys2Proof.core.run 3 s = .next t ∧ t.output = some (.accessed false r)

/-- The record of an accepted access, every field of it (45_cache_engine.md R232): policy, address, index and tag by the
policy's decomposition (R213, R216, R220), hit, position, and, of the line at that position, `data` after the access and,
on a miss, `fill` with its reason and the valid and tag it had before; and the counters after the access. In a state that
meets the invariant the data is the backing value of the address (R225; 10_state.md R34). -/
def Obligations.AccessRecordFields : Prop :=
  ∀ (s t : State) (address : Int) (rest : List Transaction) (hit : Bool) (r : AccessRecord),
    s.acceptsAccess address rest → step s = .next t → t.output = some (.accessed hit (.access r)) →
    r.policy = s.cache.store.policy ∧ r.address = address ∧ r.hit = hit ∧
    r.accessCount = t.cache.accessCount ∧ r.hitCount = t.cache.hitCount ∧
    (s.cache.store.policy = .direct → r.index = some (address % 8).toNat ∧ (r.tag.toNat : Int) = address / 8 ∧
      ∃ i : Fin 8, (i.val : Int) = address % 8 ∧ r.position = .line i) ∧
    (s.cache.store.policy = .setAssociative →
      r.index = some (address % 4).toNat ∧ (r.tag.toNat : Int) = address / 4 ∧
      ∃ (k : Fin 4) (w : Fin 2), (k.val : Int) = address % 4 ∧ r.position = .way k w) ∧
    (s.cache.store.policy = .fullyAssociative → r.index = none ∧ (r.tag.toNat : Int) = address ∧
      ∃ i : Fin 8, r.position = .line i) ∧
    (∃ old new : CacheLine, s.cache.store.lineAt r.position = some old ∧ t.cache.store.lineAt r.position = some new ∧
      new.valid = true ∧ new.tag = r.tag ∧ new.data = r.data ∧ (hit = true → r.fill = none) ∧
      (hit = false → r.fill = some
        ⟨if s.cache.store.policy = .direct then .direct else if old.valid then .lru else .free, old.valid, old.tag⟩)) ∧
    (s.cache.Inv s.params.ctrWidth → (r.data.toNat : Int) = address)

/-! ### The step transaction by request, and the source text -/

/-- A pending step request is a step() (10_state.md R40; 40_cpu_cycle.md R120): what step() does where nothing is
pending, every statement about it, it does with that request taken off and the later ones kept. That nothing pending
means a step() is the model's choice (log 1). -/
def Obligations.StepRequestIsStep : Prop :=
  ∀ (s : State) (rest : List Transaction), s.requests = .step :: rest →
    (∀ t, step { s with requests := [] } = .next t → step s = .next { t with requests := rest }) ∧
    (∀ r, step { s with requests := [] } = .fault r → step s = .fault r)

/-- How a text is cut (30_encoding.md R98, R99, R100): lines at U+000A alone; a line's tokens are what stands between
runs of space, tab and carriage return, leading and trailing runs removed. -/
def Obligations.SourceTextSplitting : Prop :=
  (∀ a : List Char, '\n' ∉ a → sourceLines a = [a] ∧ ∀ b, sourceLines (a ++ '\n' :: b) = a :: sourceLines b) ∧
  ∀ blanks token : List Char, (∀ c ∈ blanks, c = ' ' ∨ c = '\t' ∨ c = '\r') → tokens blanks = [] ∧
    (token ≠ [] → (∀ c ∈ token, c ≠ ' ' ∧ c ≠ '\t' ∧ c ≠ '\r') →
      tokens (blanks ++ token) = [token] ∧
      ∀ c rest, (c = ' ' ∨ c = '\t' ∨ c = '\r') → tokens (blanks ++ token ++ c :: rest) = token :: tokens rest)

/-- What the tokens of a line mean. The mnemonics are exactly LOAD, STORE and ADD (30_encoding.md R93, R101), upper-cased
character by character where the token is ASCII (R101; every character beyond ASCII, a letter or not, is a free value,
log 15). An operand is a base-10
number of one or more digits 0 to 9, leading zeros allowed (R102); any other token has no value. -/
def Obligations.TokenMeaning : Prop :=
  (∀ (m : List Char) (i : OperandField → Instr), mnemonicInstr m = some i ↔
    (m = "LOAD".toList ∧ i = .load) ∨ (m = "STORE".toList ∧ i = .store) ∨ (m = "ADD".toList ∧ i = .add)) ∧
  (∀ m : List Char, (∀ c ∈ m, c.toNat < 128) → upperCase m =
    m.map fun c => if 97 ≤ c.toNat ∧ c.toNat ≤ 122 then Char.ofNat (c.toNat - 32) else c) ∧
  decimalValue [] = none ∧ (∀ t : List Char, (∃ c ∈ t, c.toNat < 48 ∨ 57 < c.toNat) → decimalValue t = none) ∧
  (∀ d, d < 10 → decimalValue [Char.ofNat (48 + d)] = some d) ∧
  (∀ (t : List Char) (n d : Nat), decimalValue t = some n → d < 10 →
    decimalValue (t ++ [Char.ofNat (48 + d)]) = some (10 * n + d))

/-- The lines of a text put together (42_cpu_host_ops.md R180, R182; 30_encoding.md R105; 60_exceptions.md R265, R266):
line k of the text, blank lines counted, is assembled with line number k; the first refused line in text order decides;
where none is refused the records stand in the order of their lines, blank lines giving none, and more than 16 of them
are refused. -/
def Obligations.AssembledTextResult : Prop :=
  ∀ src : List Char,
    (∀ (k : Nat) (text : List Char) (r : HostRefusal), (sourceLines src)[k]? = some text →
      assembleLine k text = .error r →
      (∀ j earlier, j < k → (sourceLines src)[j]? = some earlier → ∃ o, assembleLine j earlier = .ok o) →
      assemble src = .error r) ∧
    (∀ results : List (Option Assembled), results.length = (sourceLines src).length →
      (∀ k text, (sourceLines src)[k]? = some text → ∃ o, results[k]? = some o ∧ assembleLine k text = .ok o) →
      ((results.filterMap id).length ≤ 16 → assemble src = .ok (results.filterMap id)) ∧
      (16 < (results.filterMap id).length → assemble src = .error .programTooLong))

/-! ### The widths -/

/-- Registers, cells and counters keep to their widths (00_scope.md R8; 10_state.md R20, R23, R33): in a state that meets
the invariant, under WORD_WIDTH = 16 + n every word after a step is below 2^(16 + n), unless addOverflow = unbounded is
selected, and under every CTR_W no counter after a step exceeds 2^CTR_W − 1. -/
def Obligations.ValuesKeepTheirWidths : Prop :=
  ∀ s t : State, s.Inv → step s = .next t →
    (∀ n, s.params.wordWidth = .bits n → s.params.addOverflow ≠ .unbounded →
      t.cpu.ac < 2 ^ (16 + n) ∧ t.cpu.pc < 2 ^ (16 + n) ∧ t.cpu.ir < 2 ^ (16 + n) ∧ t.cpu.mar < 2 ^ (16 + n) ∧
      t.cpu.mbr < 2 ^ (16 + n) ∧ ∀ a, Memory.cell t.cpu.mem a < 2 ^ (16 + n)) ∧
    t.cache.accessCount ≤ 2 ^ s.params.ctrWidth - 1 ∧ t.cache.hitCount ≤ 2 ^ s.params.ctrWidth - 1 ∧
    ∀ p l, t.cache.store.lineAt p = some l → l.accessTime ≤ 2 ^ s.params.ctrWidth - 1
end

