-- ==== Sys2Proof/Laws/Memory.lean ====
section
/-! SUPPORT. CPU memory: a write gives the cell its word and leaves every other cell alone, and every operation keeps
the canonical form. -/

namespace Sys2Proof.Machine

/-! ### The canonical form -/

theorem Memory.wfFrom_cons (n a : Nat) (w : Nat) (m : Memory) :
    Memory.wfFrom n ((a, w) :: m) = true ↔ n ≤ a ∧ a < memCells ∧ w ≠ blankCell ∧ Memory.wfFrom (a + 1) m = true := by
  simp [Memory.wfFrom, and_assoc]

theorem Memory.wfFrom_weaken {n k : Nat} (h : n ≤ k) {m : Memory} (hm : Memory.wfFrom k m = true) :
    Memory.wfFrom n m = true := by
  cases m with
  | nil => rfl
  | cons p m =>
    obtain ⟨hk, rest⟩ := (Memory.wfFrom_cons k p.1 p.2 m).1 hm
    exact (Memory.wfFrom_cons n p.1 p.2 m).2 ⟨h.trans hk, rest⟩

@[simp] theorem Memory.wf_nil : Memory.wf [] = true := rfl

/-- A write from `n` on keeps the canonical form from `n` on. -/
theorem Memory.put_wfFrom {n a : Nat} (hn : n ≤ a) (ha : a < memCells) (v : Nat) {m : Memory}
    (hm : Memory.wfFrom n m = true) : Memory.wfFrom n (Memory.put m a v) = true := by
  induction m generalizing n with
  | nil =>
    by_cases hv : v = blankCell
    · simp [Memory.put, hv, Memory.wfFrom]
    · simp [Memory.put, hv, Memory.wfFrom, hn, ha]
  | cons p m ih =>
    obtain ⟨b, w⟩ := p
    obtain ⟨hb, hb16, hw, hrest⟩ := (Memory.wfFrom_cons n b w m).1 hm
    rcases lt_trichotomy a b with hab | rfl | hab
    · by_cases hv : v = blankCell
      · simpa [Memory.put, hab, hv] using hm
      · simp only [Memory.put, hab, hv, if_true, if_false, Memory.wfFrom_cons]
        exact ⟨hn, ha, hv, hab, hb16, hw, hrest⟩
    · by_cases hv : v = blankCell
      · simpa [Memory.put, hv] using Memory.wfFrom_weaken (Nat.le_succ_of_le hn) hrest
      · simp only [Memory.put, lt_irrefl, hv, if_true, if_false, Memory.wfFrom_cons]
        exact ⟨hn, ha, hv, hrest⟩
    · have h1 : ¬ a < b := by omega
      have h2 : a ≠ b := by omega
      simp only [Memory.put, h1, h2, if_false, Memory.wfFrom_cons]
      exact ⟨hb, hb16, hw, ih hab hrest⟩

theorem Memory.put_wf {a : Nat} (ha : a < memCells) (v : Nat) {m : Memory} (hm : m.wf = true) :
    (Memory.put m a v).wf = true :=
  Memory.put_wfFrom (Nat.zero_le a) ha v hm

/-- A cell below the first listed one is blank. -/
theorem Memory.cell_below {n a : Nat} (h : a < n) {m : Memory} (hm : Memory.wfFrom n m = true) :
    Memory.cell m a = blankCell := by
  induction m generalizing n with
  | nil => rfl
  | cons p m ih =>
    obtain ⟨hn, -, -, hrest⟩ := (Memory.wfFrom_cons n p.1 p.2 m).1 hm
    have hne : a ≠ p.1 := by omega
    simp only [Memory.cell, hne, if_false]
    exact ih (show a < p.1 + 1 by omega) hrest

/-! ### Read after write -/

theorem Memory.cell_put_same {n : Nat} (a : Nat) (v : Nat) {m : Memory} (hm : Memory.wfFrom n m = true) :
    Memory.cell (Memory.put m a v) a = v := by
  induction m generalizing n with
  | nil => by_cases hv : v = blankCell <;> simp [Memory.put, hv, Memory.cell]
  | cons p m ih =>
    obtain ⟨b, w⟩ := p
    obtain ⟨-, -, -, hrest⟩ := (Memory.wfFrom_cons n b w m).1 hm
    rcases lt_trichotomy a b with hab | rfl | hab
    · have hne : a ≠ b := by omega
      by_cases hv : v = blankCell
      · simp only [Memory.put, hab, hv, if_true, Memory.cell, hne, if_false]
        exact Memory.cell_below (show a < b + 1 by omega) hrest
      · simp [Memory.put, hab, hv, Memory.cell]
    · by_cases hv : v = blankCell
      · simpa [Memory.put, hv] using Memory.cell_below (Nat.lt_succ_self a) hrest
      · simp [Memory.put, hv, Memory.cell]
    · have h1 : ¬ a < b := by omega
      have h2 : a ≠ b := by omega
      simp only [Memory.put, h1, h2, if_false, Memory.cell]
      exact ih hrest

theorem Memory.cell_put_other {a b : Nat} (h : b ≠ a) (v : Nat) (m : Memory) :
    Memory.cell (Memory.put m a v) b = Memory.cell m b := by
  induction m with
  | nil => by_cases hv : v = blankCell <;> simp [Memory.put, hv, Memory.cell, h]
  | cons p m ih =>
    obtain ⟨c, w⟩ := p
    rcases lt_trichotomy a c with hac | rfl | hac
    · by_cases hv : v = blankCell <;> simp [Memory.put, hac, hv, Memory.cell, h]
    · by_cases hv : v = blankCell <;> simp [Memory.put, hv, Memory.cell, h]
    · have h1 : ¬ a < c := by omega
      have h2 : a ≠ c := by omega
      simp only [Memory.put, h1, h2, if_false, Memory.cell, ih]

/-! ### `read` and `write` -/

theorem Memory.read_of_lt {a : Nat} (h : a < memCells) (m : Memory) : Memory.read m a = some (Memory.cell m a) :=
  if_pos h

theorem Memory.read_of_not_lt {a : Nat} (h : ¬ a < memCells) (m : Memory) : Memory.read m a = none := if_neg h

/-- What a read answers: the content of a cell that exists. -/
theorem Memory.read_eq_some {m : Memory} {a : Nat} {v : Nat} :
    Memory.read m a = some v ↔ a < memCells ∧ Memory.cell m a = v := by
  by_cases h : a < memCells <;> simp [Memory.read, h]

theorem Memory.read_eq_none {m : Memory} {a : Nat} : Memory.read m a = none ↔ ¬ a < memCells := by
  by_cases h : a < memCells <;> simp [Memory.read, h]

/-- What a write answers: memory with that one cell changed, where it exists. -/
theorem Memory.write_eq_some {m m' : Memory} {a : Nat} {v : Nat} :
    Memory.write m a v = some m' ↔ a < memCells ∧ m' = Memory.put m a v := by
  by_cases h : a < memCells <;> simp [Memory.write, h, eq_comm]

theorem Memory.write_eq_none {m : Memory} {a : Nat} {v : Nat} : Memory.write m a v = none ↔ ¬ a < memCells := by
  by_cases h : a < memCells <;> simp [Memory.write, h]

theorem Memory.read_put_same {m : Memory} (hm : m.wf = true) {a : Nat} (ha : a < memCells) (v : Nat) :
    Memory.read (Memory.put m a v) a = some v := by
  rw [Memory.read_of_lt ha, Memory.cell_put_same a v hm]

theorem Memory.read_put_other {a b : Nat} (h : b ≠ a) (v : Nat) (m : Memory) :
    Memory.read (Memory.put m a v) b = Memory.read m b := by
  unfold Memory.read
  rw [Memory.cell_put_other h]

end Sys2Proof.Machine
end

