-- ==== Sys2Proof/Laws/Assembler.lean ====
section
/-! SUPPORT. The program load_program assembles is well formed, and the memory it leaves. -/

namespace Sys2Proof.Machine

/-! ### Cutting a text -/

/-- A text without a cut is one piece, and a cut after it ends that piece. -/
theorem cutAt_of_uncut {p : Char → Bool} {a : List Char} (h : ∀ c ∈ a, p c = false) :
    cutAt p a = [a] ∧ ∀ c b, p c = true → cutAt p (a ++ c :: b) = a :: cutAt p b := by
  induction a with
  | nil => exact ⟨rfl, fun c b hc => by simp [cutAt, hc]⟩
  | cons x a ih =>
    obtain ⟨hx, ha⟩ := List.forall_mem_cons.1 h
    exact ⟨by simp [cutAt, hx, (ih ha).1], fun c b hc => by simp [cutAt, hx, (ih ha).2 c b hc]⟩

theorem isBlank_iff {c : Char} : isBlank c = true ↔ c = ' ' ∨ c = '\t' ∨ c = '\r' := by simp [isBlank, or_assoc]

/-- Leading whitespace of a line gives no token. -/
theorem tokens_cons_of_blank {c : Char} (h : isBlank c = true) (line : List Char) : tokens (c :: line) = tokens line := by
  simp [tokens, cutAt, h]

/-! ### The assembled program -/

theorem mnemonicInstr_eq_none {m : List Char} : mnemonicInstr m = none ↔ recognised m = false := by
  unfold mnemonicInstr recognised
  by_cases h1 : m = ['L', 'O', 'A', 'D']
  · simp [h1]
  · by_cases h2 : m = ['S', 'T', 'O', 'R', 'E']
    · simp [h2]
    · by_cases h3 : m = ['A', 'D', 'D']
      · simp [h3]
      · simp [h1, h2, h3]

/-- An operand that passes the checks fits the 12-bit field. -/
theorem checkedOperand_ok {o : Option (List Char)} {n : Nat} (h : checkedOperand o = .ok n) : n ≤ 4095 := by
  unfold checkedOperand at h
  split at h
  · cases h
  · split at h
    · cases h
    · split at h
      · cases h; assumption
      · cases h

/-- The record of a line carries the line's number and is well formed. -/
theorem assembleTokens_ok {line : Nat} {m : List Char} {o : Option (List Char)} {x : Assembled}
    (h : assembleTokens line m o = .ok x) : x.1.sourceLine = line ∧ x.1.wf = true := by
  cases hm : mnemonicInstr (upperCase m) with
  | none =>
    simp only [assembleTokens, hm] at h
    cases h
    exact ⟨rfl, by simp [ProgRecord.wf, mnemonicInstr_eq_none.1 hm]⟩
  | some instr =>
    cases hn : checkedOperand o with
    | error r => simp only [assembleTokens, hm, hn] at h; cases h
    | ok n =>
      simp only [assembleTokens, hm, hn] at h
      cases h
      exact ⟨rfl, by simp [ProgRecord.wf, checkedOperand_ok hn]⟩

theorem assembleLine_ok {line : Nat} {text : List Char} {x : Assembled} (h : assembleLine line text = .ok (some x)) :
    x.1.sourceLine = line ∧ x.1.wf = true := by
  unfold assembleLine at h
  split at h
  · cases h
  · cases ht : assembleTokens line _ none with
    | error r => rw [ht] at h; cases h
    | ok y => rw [ht] at h; cases h; exact assembleTokens_ok ht
  · cases ht : assembleTokens line _ (some _) with
    | error r => rw [ht] at h; cases h
    | ok y => rw [ht] at h; cases h; exact assembleTokens_ok ht
  · cases h

theorem risingLines_weaken {n k : Nat} (h : n ≤ k) {p : List ProgRecord} (hp : risingLines k p = true) :
    risingLines n p = true := by
  cases p with
  | nil => rfl
  | cons r p =>
    simp only [risingLines, Bool.and_eq_true, decide_eq_true_eq] at hp ⊢
    exact ⟨h.trans hp.1, hp.2⟩

/-- The records of the lines from `line` on are well formed and in the order of their lines. -/
theorem assembleLines_ok {line : Nat} {texts : List (List Char)} {items : List Assembled}
    (h : assembleLines line texts = .ok items) :
    (items.map Prod.fst).all ProgRecord.wf = true ∧ risingLines line (items.map Prod.fst) = true := by
  induction texts generalizing line items with
  | nil => cases h; exact ⟨rfl, rfl⟩
  | cons text rest ih =>
    simp only [assembleLines] at h
    split at h
    · cases h
    · rename_i here hhere
      split at h
      · cases h
      · rename_i after hafter
        cases h
        obtain ⟨hw, hr⟩ := ih hafter
        cases here with
        | none => exact ⟨hw, risingLines_weaken (Nat.le_succ line) hr⟩
        | some x =>
          obtain ⟨hline, hx⟩ := assembleLine_ok hhere
          constructor
          · simpa [hx] using hw
          · simp only [Option.toList_some, List.singleton_append, List.map_cons, risingLines, hline, le_refl,
              decide_true, Bool.true_and]
            exact hr

/-- What load_program accepts is a well-formed program. -/
theorem assemble_ok {src : List Char} {items : List Assembled} (h : assemble src = .ok items) :
    items.length ≤ memCells ∧ programWf (items.map Prod.fst) = true := by
  unfold assemble at h
  split at h
  · cases h
  · rename_i its hits
    split at h
    · rename_i hlen
      cases h
      obtain ⟨hw, hr⟩ := assembleLines_ok hits
      exact ⟨hlen, by rw [programWf, hw, hr, List.length_map, decide_eq_true hlen]; rfl⟩
    · cases h

/-! ### The memory load_program leaves -/

theorem placeFrom_wf {first : Nat} {ws : List Nat} {m : Memory} (hlen : first + ws.length ≤ memCells)
    (hm : m.wf = true) : (placeFrom first ws m).wf = true := by
  induction ws generalizing first m with
  | nil => exact hm
  | cons w ws ih =>
    have hlen' : first + (ws.length + 1) ≤ memCells := hlen
    exact ih (by omega) (Memory.put_wf (by omega) w hm)

/-- The cells placing words changes: the i-th word in cell first + i. -/
theorem placeFrom_cell {first : Nat} {ws : List Nat} {m : Memory} (hlen : first + ws.length ≤ memCells)
    (hm : m.wf = true) (a : Nat) : Memory.cell (placeFrom first ws m) a =
      if first ≤ a then (ws[a - first]?).getD (Memory.cell m a) else Memory.cell m a := by
  induction ws generalizing first m with
  | nil => simp [placeFrom]
  | cons w ws ih =>
    have hlen' : first + (ws.length + 1) ≤ memCells := hlen
    rw [placeFrom, ih (by omega) (Memory.put_wf (by omega) w hm)]
    rcases lt_trichotomy a first with h | rfl | h
    · rw [if_neg (by omega), if_neg (by omega), Memory.cell_put_other (by omega)]
    · rw [if_neg (by omega), if_pos le_rfl, Memory.cell_put_same a w hm]; simp
    · rw [if_pos (by omega), if_pos (by omega), Memory.cell_put_other (by omega)]
      have he : a - first = (a - (first + 1)) + 1 := by omega
      rw [he, List.getElem?_cons_succ]

theorem seed_wf {m : Memory} (hm : m.wf = true) : (seed m).wf = true :=
  Memory.put_wf (by decide) 3 (Memory.put_wf (by decide) 5 hm)

theorem seed_cell {m : Memory} (hm : m.wf = true) (a : Nat) :
    Memory.cell (seed m) a = if a = 11 then 3 else if a = 10 then 5 else Memory.cell m a := by
  have h1 : (Memory.put m 10 5).wf = true := Memory.put_wf (by decide) 5 hm
  have hs : seed m = Memory.put (Memory.put m 10 5) 11 3 := rfl
  rw [hs]
  by_cases h11 : a = 11
  · subst h11; rw [if_pos rfl, Memory.cell_put_same 11 3 h1]
  · rw [if_neg h11, Memory.cell_put_other h11]
    by_cases h10 : a = 10
    · subst h10; rw [if_pos rfl, Memory.cell_put_same 10 5 hm]
    · rw [if_neg h10, Memory.cell_put_other h10]

theorem loadedMemory_wf {clears : Bool} {words : List Nat} {m : Memory} (hlen : words.length ≤ memCells)
    (hm : m.wf = true) : (loadedMemory clears words m).wf = true := by
  refine seed_wf (placeFrom_wf (by omega) ?_)
  cases clears
  · exact hm
  · rfl

/-! ### load_program -/

/-- load_program is refused with no change but its output, or launches the assembled program. -/
theorem loadProgram_cases (src : List Char) (s : State) :
    (∃ r, assemble src = .error r ∧ loadProgram src s = refuse r s) ∨
    (∃ items, assemble src = .ok items ∧ loadProgram src s =
      (s.withCpu (Cpu.launched (items.map Prod.fst)
        (loadedMemory s.params.loadClearsMemory (items.map assembledWord) s.cpu.mem))).respond .loaded) := by
  cases h : assemble src with
  | error r => exact .inl ⟨r, rfl, by simp [loadProgram, h]⟩
  | ok items => exact .inr ⟨items, rfl, by simp [loadProgram, h]⟩

end Sys2Proof.Machine
end

