-- ==== Sys2Proof/Laws/State.lean ====
section
/-! SUPPORT. One lemma for each field of each named update of the state (Machine/Ops.lean), so that no proof unfolds a
record update. -/

namespace Sys2Proof.Machine
@[simp] theorem Cpu.withMbrAc_ac (c : Cpu) (mbr ac : Nat) : (c.withMbrAc mbr ac).ac = ac := rfl
@[simp] theorem Cpu.withMbrAc_pc (c : Cpu) (mbr ac : Nat) : (c.withMbrAc mbr ac).pc = c.pc := rfl
@[simp] theorem Cpu.withMbrAc_ir (c : Cpu) (mbr ac : Nat) : (c.withMbrAc mbr ac).ir = c.ir := rfl
@[simp] theorem Cpu.withMbrAc_mar (c : Cpu) (mbr ac : Nat) : (c.withMbrAc mbr ac).mar = c.mar := rfl
@[simp] theorem Cpu.withMbrAc_mbr (c : Cpu) (mbr ac : Nat) : (c.withMbrAc mbr ac).mbr = mbr := rfl
@[simp] theorem Cpu.withMbrAc_mem (c : Cpu) (mbr ac : Nat) : (c.withMbrAc mbr ac).mem = c.mem := rfl
@[simp] theorem Cpu.withMbrAc_prog (c : Cpu) (mbr ac : Nat) : (c.withMbrAc mbr ac).prog = c.prog := rfl
@[simp] theorem Cpu.withMbrAc_running (c : Cpu) (mbr ac : Nat) : (c.withMbrAc mbr ac).running = c.running := rfl
@[simp] theorem Cpu.withMbrAc_currentStep (c : Cpu) (mbr ac : Nat) : (c.withMbrAc mbr ac).currentStep = c.currentStep := rfl
@[simp] theorem Cpu.withMbrAc_fault (c : Cpu) (mbr ac : Nat) : (c.withMbrAc mbr ac).fault = c.fault := rfl
@[simp] theorem Cpu.withMbrAc_phase (c : Cpu) (mbr ac : Nat) : (c.withMbrAc mbr ac).phase = c.phase := rfl
@[simp] theorem Cpu.withMbrAc_progLen (c : Cpu) (mbr ac : Nat) : (c.withMbrAc mbr ac).progLen = c.progLen := rfl
@[simp] theorem Cpu.withMbrMem_ac (c : Cpu) (mbr : Nat) (mem : Memory) : (c.withMbrMem mbr mem).ac = c.ac := rfl
@[simp] theorem Cpu.withMbrMem_pc (c : Cpu) (mbr : Nat) (mem : Memory) : (c.withMbrMem mbr mem).pc = c.pc := rfl
@[simp] theorem Cpu.withMbrMem_ir (c : Cpu) (mbr : Nat) (mem : Memory) : (c.withMbrMem mbr mem).ir = c.ir := rfl
@[simp] theorem Cpu.withMbrMem_mar (c : Cpu) (mbr : Nat) (mem : Memory) : (c.withMbrMem mbr mem).mar = c.mar := rfl
@[simp] theorem Cpu.withMbrMem_mbr (c : Cpu) (mbr : Nat) (mem : Memory) : (c.withMbrMem mbr mem).mbr = mbr := rfl
@[simp] theorem Cpu.withMbrMem_mem (c : Cpu) (mbr : Nat) (mem : Memory) : (c.withMbrMem mbr mem).mem = mem := rfl
@[simp] theorem Cpu.withMbrMem_prog (c : Cpu) (mbr : Nat) (mem : Memory) : (c.withMbrMem mbr mem).prog = c.prog := rfl
@[simp] theorem Cpu.withMbrMem_running (c : Cpu) (mbr : Nat) (mem : Memory) : (c.withMbrMem mbr mem).running = c.running := rfl
@[simp] theorem Cpu.withMbrMem_currentStep (c : Cpu) (mbr : Nat) (mem : Memory) : (c.withMbrMem mbr mem).currentStep = c.currentStep := rfl
@[simp] theorem Cpu.withMbrMem_fault (c : Cpu) (mbr : Nat) (mem : Memory) : (c.withMbrMem mbr mem).fault = c.fault := rfl
@[simp] theorem Cpu.withMbrMem_phase (c : Cpu) (mbr : Nat) (mem : Memory) : (c.withMbrMem mbr mem).phase = c.phase := rfl
@[simp] theorem Cpu.withMbrMem_progLen (c : Cpu) (mbr : Nat) (mem : Memory) : (c.withMbrMem mbr mem).progLen = c.progLen := rfl
@[simp] theorem Cpu.fetched_ac (c : Cpu) (w : Nat) : (c.fetched w).ac = c.ac := rfl
@[simp] theorem Cpu.fetched_pc (c : Cpu) (w : Nat) : (c.fetched w).pc = c.pc + 1 := rfl
@[simp] theorem Cpu.fetched_ir (c : Cpu) (w : Nat) : (c.fetched w).ir = w := rfl
@[simp] theorem Cpu.fetched_mar (c : Cpu) (w : Nat) : (c.fetched w).mar = c.pc := rfl
@[simp] theorem Cpu.fetched_mbr (c : Cpu) (w : Nat) : (c.fetched w).mbr = w := rfl
@[simp] theorem Cpu.fetched_mem (c : Cpu) (w : Nat) : (c.fetched w).mem = c.mem := rfl
@[simp] theorem Cpu.fetched_prog (c : Cpu) (w : Nat) : (c.fetched w).prog = c.prog := rfl
@[simp] theorem Cpu.fetched_running (c : Cpu) (w : Nat) : (c.fetched w).running = c.running := rfl
@[simp] theorem Cpu.fetched_currentStep (c : Cpu) (w : Nat) : (c.fetched w).currentStep = c.currentStep := rfl
@[simp] theorem Cpu.fetched_fault (c : Cpu) (w : Nat) : (c.fetched w).fault = c.fault := rfl
@[simp] theorem Cpu.fetched_phase (c : Cpu) (w : Nat) : (c.fetched w).phase = c.phase := rfl
@[simp] theorem Cpu.fetched_progLen (c : Cpu) (w : Nat) : (c.fetched w).progLen = c.progLen := rfl
@[simp] theorem Cpu.decoded_ac (c : Cpu) : (c.decoded).ac = c.ac := rfl
@[simp] theorem Cpu.decoded_pc (c : Cpu) : (c.decoded).pc = c.pc := rfl
@[simp] theorem Cpu.decoded_ir (c : Cpu) : (c.decoded).ir = c.ir := rfl
@[simp] theorem Cpu.decoded_mar (c : Cpu) : (c.decoded).mar = (addrField c.instr).toNat := rfl
@[simp] theorem Cpu.decoded_mbr (c : Cpu) : (c.decoded).mbr = c.mbr := rfl
@[simp] theorem Cpu.decoded_mem (c : Cpu) : (c.decoded).mem = c.mem := rfl
@[simp] theorem Cpu.decoded_prog (c : Cpu) : (c.decoded).prog = c.prog := rfl
@[simp] theorem Cpu.decoded_running (c : Cpu) : (c.decoded).running = c.running := rfl
@[simp] theorem Cpu.decoded_currentStep (c : Cpu) : (c.decoded).currentStep = c.currentStep := rfl
@[simp] theorem Cpu.decoded_fault (c : Cpu) : (c.decoded).fault = c.fault := rfl
@[simp] theorem Cpu.decoded_phase (c : Cpu) : (c.decoded).phase = c.phase := rfl
@[simp] theorem Cpu.decoded_progLen (c : Cpu) : (c.decoded).progLen = c.progLen := rfl
@[simp] theorem Cpu.stopped_ac (c : Cpu) : (c.stopped).ac = c.ac := rfl
@[simp] theorem Cpu.stopped_pc (c : Cpu) : (c.stopped).pc = c.pc := rfl
@[simp] theorem Cpu.stopped_ir (c : Cpu) : (c.stopped).ir = c.ir := rfl
@[simp] theorem Cpu.stopped_mar (c : Cpu) : (c.stopped).mar = c.mar := rfl
@[simp] theorem Cpu.stopped_mbr (c : Cpu) : (c.stopped).mbr = c.mbr := rfl
@[simp] theorem Cpu.stopped_mem (c : Cpu) : (c.stopped).mem = c.mem := rfl
@[simp] theorem Cpu.stopped_prog (c : Cpu) : (c.stopped).prog = c.prog := rfl
@[simp] theorem Cpu.stopped_running (c : Cpu) : (c.stopped).running = false := rfl
@[simp] theorem Cpu.stopped_currentStep (c : Cpu) : (c.stopped).currentStep = c.currentStep := rfl
@[simp] theorem Cpu.stopped_fault (c : Cpu) : (c.stopped).fault = c.fault := rfl
@[simp] theorem Cpu.stopped_phase (c : Cpu) : (c.stopped).phase = c.phase := rfl
@[simp] theorem Cpu.stopped_progLen (c : Cpu) : (c.stopped).progLen = c.progLen := rfl
@[simp] theorem Cpu.faulted_ac (c : Cpu) (f : CpuFault) : (c.faulted f).ac = c.ac := rfl
@[simp] theorem Cpu.faulted_pc (c : Cpu) (f : CpuFault) : (c.faulted f).pc = c.pc := rfl
@[simp] theorem Cpu.faulted_ir (c : Cpu) (f : CpuFault) : (c.faulted f).ir = c.ir := rfl
@[simp] theorem Cpu.faulted_mar (c : Cpu) (f : CpuFault) : (c.faulted f).mar = c.mar := rfl
@[simp] theorem Cpu.faulted_mbr (c : Cpu) (f : CpuFault) : (c.faulted f).mbr = c.mbr := rfl
@[simp] theorem Cpu.faulted_mem (c : Cpu) (f : CpuFault) : (c.faulted f).mem = c.mem := rfl
@[simp] theorem Cpu.faulted_prog (c : Cpu) (f : CpuFault) : (c.faulted f).prog = c.prog := rfl
@[simp] theorem Cpu.faulted_running (c : Cpu) (f : CpuFault) : (c.faulted f).running = false := rfl
@[simp] theorem Cpu.faulted_currentStep (c : Cpu) (f : CpuFault) : (c.faulted f).currentStep = c.currentStep := rfl
@[simp] theorem Cpu.faulted_fault (c : Cpu) (f : CpuFault) : (c.faulted f).fault = some f := rfl
@[simp] theorem Cpu.faulted_phase (c : Cpu) (f : CpuFault) : (c.faulted f).phase = c.phase := rfl
@[simp] theorem Cpu.faulted_progLen (c : Cpu) (f : CpuFault) : (c.faulted f).progLen = c.progLen := rfl
@[simp] theorem Cpu.counted_ac (c : Cpu) : (c.counted).ac = c.ac := rfl
@[simp] theorem Cpu.counted_pc (c : Cpu) : (c.counted).pc = c.pc := rfl
@[simp] theorem Cpu.counted_ir (c : Cpu) : (c.counted).ir = c.ir := rfl
@[simp] theorem Cpu.counted_mar (c : Cpu) : (c.counted).mar = c.mar := rfl
@[simp] theorem Cpu.counted_mbr (c : Cpu) : (c.counted).mbr = c.mbr := rfl
@[simp] theorem Cpu.counted_mem (c : Cpu) : (c.counted).mem = c.mem := rfl
@[simp] theorem Cpu.counted_prog (c : Cpu) : (c.counted).prog = c.prog := rfl
@[simp] theorem Cpu.counted_running (c : Cpu) : (c.counted).running = c.running := rfl
@[simp] theorem Cpu.counted_currentStep (c : Cpu) : (c.counted).currentStep = c.currentStep + 1 := rfl
@[simp] theorem Cpu.counted_fault (c : Cpu) : (c.counted).fault = c.fault := rfl
@[simp] theorem Cpu.counted_progLen (c : Cpu) : (c.counted).progLen = c.progLen := rfl
@[simp] theorem Cpu.launched_ac (p : List ProgRecord) (m : Memory) : (Cpu.launched p m).ac = 0 := rfl
@[simp] theorem Cpu.launched_pc (p : List ProgRecord) (m : Memory) : (Cpu.launched p m).pc = 0 := rfl
@[simp] theorem Cpu.launched_ir (p : List ProgRecord) (m : Memory) : (Cpu.launched p m).ir = 0 := rfl
@[simp] theorem Cpu.launched_mar (p : List ProgRecord) (m : Memory) : (Cpu.launched p m).mar = 0 := rfl
@[simp] theorem Cpu.launched_mbr (p : List ProgRecord) (m : Memory) : (Cpu.launched p m).mbr = 0 := rfl
@[simp] theorem Cpu.launched_mem (p : List ProgRecord) (m : Memory) : (Cpu.launched p m).mem = m := rfl
@[simp] theorem Cpu.launched_prog (p : List ProgRecord) (m : Memory) : (Cpu.launched p m).prog = p := rfl
@[simp] theorem Cpu.launched_running (p : List ProgRecord) (m : Memory) : (Cpu.launched p m).running = true := rfl
@[simp] theorem Cpu.launched_currentStep (p : List ProgRecord) (m : Memory) : (Cpu.launched p m).currentStep = 0 := rfl
@[simp] theorem Cpu.launched_fault (p : List ProgRecord) (m : Memory) : (Cpu.launched p m).fault = none := rfl
@[simp] theorem State.withCpu_cpu (s : State) (c : Cpu) : (s.withCpu c).cpu = c := rfl
@[simp] theorem State.withCpu_cache (s : State) (c : Cpu) : (s.withCpu c).cache = s.cache := rfl
@[simp] theorem State.withCpu_params (s : State) (c : Cpu) : (s.withCpu c).params = s.params := rfl
@[simp] theorem State.withCpu_requests (s : State) (c : Cpu) : (s.withCpu c).requests = s.requests := rfl
@[simp] theorem State.withCpu_output (s : State) (c : Cpu) : (s.withCpu c).output = s.output := rfl
@[simp] theorem State.withCache_cpu (s : State) (c : Cache) : (s.withCache c).cpu = s.cpu := rfl
@[simp] theorem State.withCache_cache (s : State) (c : Cache) : (s.withCache c).cache = c := rfl
@[simp] theorem State.withCache_params (s : State) (c : Cache) : (s.withCache c).params = s.params := rfl
@[simp] theorem State.withCache_requests (s : State) (c : Cache) : (s.withCache c).requests = s.requests := rfl
@[simp] theorem State.withCache_output (s : State) (c : Cache) : (s.withCache c).output = s.output := rfl
@[simp] theorem State.respond_cpu (s : State) (r : Response) : (s.respond r).cpu = s.cpu := rfl
@[simp] theorem State.respond_cache (s : State) (r : Response) : (s.respond r).cache = s.cache := rfl
@[simp] theorem State.respond_params (s : State) (r : Response) : (s.respond r).params = s.params := rfl
@[simp] theorem State.respond_requests (s : State) (r : Response) : (s.respond r).requests = s.requests := rfl
@[simp] theorem State.respond_output (s : State) (r : Response) : (s.respond r).output = some r := rfl
@[simp] theorem State.withRequests_cpu (s : State) (r : List Transaction) : (s.withRequests r).cpu = s.cpu := rfl
@[simp] theorem State.withRequests_cache (s : State) (r : List Transaction) : (s.withRequests r).cache = s.cache := rfl
@[simp] theorem State.withRequests_params (s : State) (r : List Transaction) : (s.withRequests r).params = s.params := rfl
@[simp] theorem State.withRequests_requests (s : State) (r : List Transaction) : (s.withRequests r).requests = r := rfl
@[simp] theorem State.withRequests_output (s : State) (r : List Transaction) : (s.withRequests r).output = s.output := rfl
@[simp] theorem State.counted_cpu (s : State) : s.counted.cpu = s.cpu.counted := rfl
@[simp] theorem raise_cpu (f : CpuFault) (s : State) : (raise f s).cpu = s.cpu.faulted f := rfl
@[simp] theorem completed_cpu (op : ExecOp) (v : Option Nat) (regs : List Reg) (cells : List Nat) (c : Cpu)
    (s : State) : (completed op v regs cells c s).cpu = c := rfl
@[simp] theorem stopEngine_cpu (s : State) : (stopEngine s).cpu = s.cpu.stopped := rfl
@[simp] theorem State.counted_cache (s : State) : s.counted.cache = s.cache := rfl
@[simp] theorem raise_cache (f : CpuFault) (s : State) : (raise f s).cache = s.cache := rfl
@[simp] theorem completed_cache (op : ExecOp) (v : Option Nat) (regs : List Reg) (cells : List Nat) (c : Cpu)
    (s : State) : (completed op v regs cells c s).cache = s.cache := rfl
@[simp] theorem stopEngine_cache (s : State) : (stopEngine s).cache = s.cache := rfl
@[simp] theorem State.counted_params (s : State) : s.counted.params = s.params := rfl
@[simp] theorem raise_params (f : CpuFault) (s : State) : (raise f s).params = s.params := rfl
@[simp] theorem completed_params (op : ExecOp) (v : Option Nat) (regs : List Reg) (cells : List Nat) (c : Cpu)
    (s : State) : (completed op v regs cells c s).params = s.params := rfl
@[simp] theorem stopEngine_params (s : State) : (stopEngine s).params = s.params := rfl
@[simp] theorem State.counted_requests (s : State) : s.counted.requests = s.requests := rfl
@[simp] theorem raise_requests (f : CpuFault) (s : State) : (raise f s).requests = s.requests := rfl
@[simp] theorem completed_requests (op : ExecOp) (v : Option Nat) (regs : List Reg) (cells : List Nat) (c : Cpu)
    (s : State) : (completed op v regs cells c s).requests = s.requests := rfl
@[simp] theorem stopEngine_requests (s : State) : (stopEngine s).requests = s.requests := rfl
@[simp] theorem State.counted_output (s : State) : s.counted.output = s.output := rfl
@[simp] theorem raise_output (f : CpuFault) (s : State) : (raise f s).output = some (.stepped (.executeFault f) [] []) := rfl
@[simp] theorem completed_output (op : ExecOp) (v : Option Nat) (regs : List Reg) (cells : List Nat) (c : Cpu)
    (s : State) : (completed op v regs cells c s).output = some (.stepped (.execute op s.cpu.mar v c.ac) regs cells) := rfl
@[simp] theorem stopEngine_output (s : State) : (stopEngine s).output = some (.stepped (.stopped s.cpu.stopReason) [] []) := rfl
end Sys2Proof.Machine
end

