-- ==== Sys2Proof/Laws/Exec.lean ====
section
/-! SUPPORT. What each shared operation of EXECUTE, each micro-step and the step can do, said once. -/

namespace Sys2Proof.Machine

/-! ### Operands -/

theorem Cpu.readOperand_eq_some {c : Cpu} {v : Nat} :
    c.readOperand = some v ↔ c.mar < memCells ∧ Memory.cell c.mem c.mar = v :=
  Memory.read_eq_some

theorem Cpu.readOperand_eq_none {c : Cpu} : c.readOperand = none ↔ ¬ c.mar < memCells := Memory.read_eq_none

theorem Cpu.writeOperand_eq_some {c : Cpu} {v : Nat} {m : Memory} :
    c.writeOperand v = some m ↔ c.mar < memCells ∧ m = Memory.put c.mem c.mar v :=
  Memory.write_eq_some

theorem Cpu.writeOperand_eq_none {c : Cpu} {v : Nat} : c.writeOperand v = none ↔ ¬ c.mar < memCells :=
  Memory.write_eq_none

/-! ### EXECUTE -/

/-- What an EXECUTE may do to the CPU record when it completes: nothing, the cell MAR names to MBR and it or a sum to AC,
or AC to MBR and that cell. -/
def Cpu.executesTo (p : Params) (c c' : Cpu) : Prop :=
  c' = c ∨
    (c.mar < memCells ∧ ∃ r, (r = Memory.cell c.mem c.mar ∨ addResult p c.ac (Memory.cell c.mem c.mar) = some r) ∧
      c' = c.withMbrAc (Memory.cell c.mem c.mar) r) ∨
    (c.mar < memCells ∧ c' = c.withMbrMem c.ac (Memory.put c.mem c.mar c.ac))

/-- Every EXECUTE answers a next state: a raised fault, or a completion. -/
theorem exec_answers (i : Instr) (s : State) :
    (∃ f, exec i s = .next (raise f s)) ∨
    (∃ op v regs cells c, exec i s = .next (completed op v regs cells c s) ∧ s.cpu.executesTo s.params c) := by
  have nop : ∃ op v regs cells c, Host.Outcome.next (noOperation s) =
      (.next (completed op v regs cells c s) : Host.Outcome State Fault Refusal) ∧ s.cpu.executesTo s.params c :=
    ⟨_, _, _, _, _, rfl, .inl rfl⟩
  cases i with
  | load a =>
    cases h : s.cpu.readOperand with
    | none => exact .inl ⟨_, by simp only [exec, execLoad, h]; rfl⟩
    | some v =>
      obtain ⟨hlt, rfl⟩ := Cpu.readOperand_eq_some.1 h
      exact .inr ⟨_, _, _, _, _, by simp only [exec, execLoad, h]; rfl, .inr (.inl ⟨hlt, _, .inl rfl, rfl⟩)⟩
  | store a =>
    cases h : s.cpu.writeOperand s.cpu.ac with
    | none => exact .inl ⟨_, by simp only [exec, execStore, h]; rfl⟩
    | some m =>
      obtain ⟨hlt, rfl⟩ := Cpu.writeOperand_eq_some.1 h
      exact .inr ⟨_, _, _, _, _, by simp only [exec, execStore, h]; rfl, .inr (.inr ⟨hlt, rfl⟩)⟩
  | add a =>
    cases h : s.cpu.readOperand with
    | none => exact .inl ⟨_, by simp only [exec, execAdd, h]; rfl⟩
    | some v =>
      obtain ⟨hlt, rfl⟩ := Cpu.readOperand_eq_some.1 h
      cases hr : addResult s.params s.cpu.ac (Memory.cell s.cpu.mem s.cpu.mar) with
      | none => exact .inl ⟨_, by simp only [exec, execAdd, h, hr]; rfl⟩
      | some r => exact .inr ⟨_, _, _, _, _, by simp only [exec, execAdd, h, hr]; rfl, .inr (.inl ⟨hlt, _, .inr hr, rfl⟩)⟩
  | nop0 | nop4 | nop5 | nop6 | nop7 | nop8 | nop9 | nopA | nopB | nopC | nopD | nopE | nopF => exact .inr nop

/-- The EXECUTE micro-step: the fault raised and not counted, or the completion counted where the engine runs. -/
theorem executeMicroStep_answers (s : State) :
    (∃ f, executeMicroStep s = .next (raise f s)) ∨
    (∃ op v regs cells c, executeMicroStep s = .next (countUnlessFaulted (completed op v regs cells c s)) ∧
      s.cpu.executesTo s.params c) := by
  unfold executeMicroStep
  rcases exec_answers (decodeWord s.cpu.instr) s with ⟨f, h⟩ | ⟨op, v, regs, cells, c, h, hc⟩
  · exact .inl ⟨f, by rw [h]; rfl⟩
  · exact .inr ⟨op, v, regs, cells, c, by rw [h], hc⟩

/-! ### The stop test and the other micro-steps -/

/-- The stop test lets a step() through only while the engine runs, and a FETCH only within the program. -/
theorem State.stops_eq_false {s : State} :
    s.stops = false ↔ s.cpu.running = true ∧
      (s.cpu.pc < s.cpu.progLen ∨ (s.params.stopCheckEveryMicroStep = false ∧ s.cpu.phase ≠ .fetch)) := by
  by_cases h : s.cpu.progLen ≤ s.cpu.pc
  · simp [State.stops, Cpu.exhausted, h, Nat.not_lt.2 h]
  · simp [State.stops, Cpu.exhausted, h, Nat.not_le.1 h]

theorem Cpu.phase_eq_fetch {c : Cpu} : c.phase = .fetch ↔ c.currentStep % 3 = 0 := by
  unfold Cpu.phase; split <;> simp_all

theorem Cpu.phase_eq_decode {c : Cpu} : c.phase = .decode ↔ c.currentStep % 3 = 1 := by
  unfold Cpu.phase; split <;> simp_all

theorem Cpu.phase_eq_execute {c : Cpu} : c.phase = .execute ↔ c.currentStep % 3 = 2 := by
  unfold Cpu.phase; split <;> simp_all; omega

theorem fetchMicroStep_of_lt {s : State} (h : s.cpu.pc < memCells) :
    fetchMicroStep s = .next ((s.withCpu (s.cpu.fetched (Memory.cell s.cpu.mem s.cpu.pc))).respond
      (.stepped (.fetch s.cpu.pc (Memory.cell s.cpu.mem s.cpu.pc) (s.cpu.pc + 1)) [.mar, .mbr, .ir, .pc]
        [s.cpu.pc])) := by
  simp [fetchMicroStep, Memory.read_of_lt h]

theorem fetchMicroStep_of_not_lt {s : State} (h : ¬ s.cpu.pc < memCells) :
    fetchMicroStep s = .fault (.fetchOutsideMemory s.cpu.pc) := by
  simp [fetchMicroStep, Memory.read_of_not_lt h]

theorem cpuStep_of_stops {s : State} (h : s.stops = true) : cpuStep s = .next (stopEngine s) := by
  simp [cpuStep, h]

theorem cpuStep_of_fetch {s : State} (h : s.stops = false) (hp : s.cpu.phase = .fetch) : cpuStep s = countedFetch s := by
  simp [cpuStep, h, hp]

theorem cpuStep_of_decode {s : State} (h : s.stops = false) (hp : s.cpu.phase = .decode) :
    cpuStep s = .next (decodeMicroStep s).counted := by
  simp [cpuStep, h, hp]

theorem cpuStep_of_execute {s : State} (h : s.stops = false) (hp : s.cpu.phase = .execute) :
    cpuStep s = executeMicroStep s := by
  simp [cpuStep, h, hp]

/-- Everything a step() can do to the CPU record when it answers a next state, by its micro-step. -/
inductive Cpu.StepsTo (s : State) : Cpu → Prop
  | stop : s.stops = true → Cpu.StepsTo s s.cpu.stopped
  | fetch : s.stops = false → s.cpu.phase = .fetch → s.cpu.pc < memCells →
      Cpu.StepsTo s (s.cpu.fetched (Memory.cell s.cpu.mem s.cpu.pc)).counted
  | decode : s.stops = false → s.cpu.phase = .decode → Cpu.StepsTo s s.cpu.decoded.counted
  | execute (c : Cpu) : s.stops = false → s.cpu.phase = .execute → s.cpu.executesTo s.params c → c.running = true →
      Cpu.StepsTo s c.counted
  | raise (f : CpuFault) : s.stops = false → s.cpu.phase = .execute → Cpu.StepsTo s (s.cpu.faulted f)

theorem Cpu.executesTo_running {p : Params} {c c' : Cpu} (h : c.executesTo p c') : c'.running = c.running := by
  rcases h with rfl | ⟨-, r, -, rfl⟩ | ⟨-, rfl⟩ <;> rfl

/-- A step() that answers a next state: what it does to the CPU record; it leaves the cache, the parameters and the
pending transactions alone. -/
theorem cpuStep_next {s t : State} (h : cpuStep s = .next t) :
    Cpu.StepsTo s t.cpu ∧ t.cache = s.cache ∧ t.params = s.params ∧ t.requests = s.requests := by
  cases hs : s.stops with
  | true =>
    rw [cpuStep_of_stops hs] at h; cases h
    exact ⟨.stop hs, rfl, rfl, rfl⟩
  | false =>
    cases hp : s.cpu.phase with
    | fetch =>
      rw [cpuStep_of_fetch hs hp, countedFetch] at h
      by_cases hlt : s.cpu.pc < memCells
      · rw [fetchMicroStep_of_lt hlt] at h; cases h
        exact ⟨.fetch hs hp hlt, rfl, rfl, rfl⟩
      · rw [fetchMicroStep_of_not_lt hlt] at h; cases h
    | decode =>
      rw [cpuStep_of_decode hs hp] at h; cases h
      exact ⟨.decode hs hp, rfl, rfl, rfl⟩
    | execute =>
      rw [cpuStep_of_execute hs hp] at h
      rcases executeMicroStep_answers s with ⟨f, he⟩ | ⟨op, v, regs, cells, c, he, hc⟩
      · rw [he] at h; cases h
        exact ⟨.raise f hs hp, rfl, rfl, rfl⟩
      · rw [he] at h; cases h
        have hrun : c.running = true := by
          rw [Cpu.executesTo_running hc]; exact (State.stops_eq_false.1 hs).1
        refine ⟨?_, ?_, ?_, ?_⟩ <;> simp only [countUnlessFaulted, completed_cpu, hrun, if_true]
        · exact .execute c hs hp hc hrun
        all_goals rfl

/-- A step() answers a next state unless it is a FETCH with PC outside M. -/
theorem cpuStep_answers (s : State) :
    (∃ t, cpuStep s = .next t) ∨
    (s.stops = false ∧ s.cpu.phase = .fetch ∧ ¬ s.cpu.pc < memCells ∧
      cpuStep s = .fault (.fetchOutsideMemory s.cpu.pc)) := by
  cases hs : s.stops with
  | true => exact .inl ⟨_, cpuStep_of_stops hs⟩
  | false =>
    cases hp : s.cpu.phase with
    | fetch =>
      by_cases hlt : s.cpu.pc < memCells
      · exact .inl ⟨_, by rw [cpuStep_of_fetch hs hp, countedFetch, fetchMicroStep_of_lt hlt]⟩
      · exact .inr ⟨rfl, rfl, hlt, by rw [cpuStep_of_fetch hs hp, countedFetch, fetchMicroStep_of_not_lt hlt]⟩
    | decode => exact .inl ⟨_, cpuStep_of_decode hs hp⟩
    | execute =>
      rcases executeMicroStep_answers s with ⟨f, he⟩ | ⟨op, v, regs, cells, c, he, -⟩ <;>
        exact .inl ⟨_, by rw [cpuStep_of_execute hs hp, he]⟩

/-! ### What a step() reads -/

/-- EXECUTE reads the CPU record and the parameters alone, and writes the CPU record and the output alone. -/
theorem exec_reads (i : Instr) {s u t : State} (hc : u.cpu = s.cpu) (hp : u.params = s.params)
    (h : exec i s = .next t) : exec i u = .next { u with cpu := t.cpu, output := t.output } := by
  obtain ⟨c, cache, p, q, o⟩ := s
  obtain ⟨c', cache', p', q', o'⟩ := u
  cases hc; cases hp
  cases i with
  | load a =>
    cases hv : c.readOperand <;> simp only [exec, execLoad, hv] at h ⊢ <;> cases h <;> rfl
  | store a =>
    cases hv : c.writeOperand c.ac <;> simp only [exec, execStore, hv] at h ⊢ <;> cases h <;> rfl
  | add a =>
    cases hv : c.readOperand with
    | none => simp only [exec, execAdd, hv] at h ⊢; cases h; rfl
    | some v =>
      cases hr : addResult p c.ac v <;> simp only [exec, execAdd, hv, hr] at h ⊢ <;> cases h <;> rfl
  | nop0 | nop4 | nop5 | nop6 | nop7 | nop8 | nop9 | nopA | nopB | nopC | nopD | nopE | nopF => cases h; rfl

/-- A step() reads the CPU record and the parameters alone, and writes the CPU record and the output alone. -/
theorem cpuStep_reads {s u : State} (hc : u.cpu = s.cpu) (hp : u.params = s.params) :
    (∀ t, cpuStep s = .next t → cpuStep u = .next { u with cpu := t.cpu, output := t.output }) ∧
    (∀ r, cpuStep s = .fault r → cpuStep u = .fault r) := by
  have hstops : u.stops = s.stops := by simp only [State.stops, hc, hp]
  cases hs : s.stops with
  | true =>
    rw [cpuStep_of_stops hs, cpuStep_of_stops (hstops.trans hs)]
    refine ⟨fun t h => ?_, fun r h => by cases h⟩
    cases h; simp only [stopEngine, hc]; rfl
  | false =>
    have hphase : u.cpu.phase = s.cpu.phase := by rw [hc]
    cases hph : s.cpu.phase with
    | fetch =>
      rw [cpuStep_of_fetch hs hph, cpuStep_of_fetch (hstops.trans hs) (hphase.trans hph), countedFetch, countedFetch]
      by_cases hlt : s.cpu.pc < memCells
      · rw [fetchMicroStep_of_lt hlt, fetchMicroStep_of_lt (s := u) (hc ▸ hlt), hc]
        exact ⟨fun t h => by cases h; rfl, fun r h => nomatch h⟩
      · rw [fetchMicroStep_of_not_lt hlt, fetchMicroStep_of_not_lt (s := u) (hc ▸ hlt), hc]
        exact ⟨fun t h => (nomatch h), fun r h => by cases h; rfl⟩
    | decode =>
      rw [cpuStep_of_decode hs hph, cpuStep_of_decode (hstops.trans hs) (hphase.trans hph)]
      refine ⟨fun t h => ?_, fun r h => nomatch h⟩
      cases h; simp only [decodeMicroStep, hc]; rfl
    | execute =>
      rw [cpuStep_of_execute hs hph, cpuStep_of_execute (hstops.trans hs) (hphase.trans hph), executeMicroStep,
        executeMicroStep, hc]
      cases he : exec (decodeWord s.cpu.instr) s with
      | next t =>
        rw [exec_reads _ hc hp he]
        refine ⟨fun t' h => ?_, fun r h => nomatch h⟩
        cases h; cases hr : t.cpu.running <;> simp only [countUnlessFaulted, hr] <;> rfl
      | fault r | refused r =>
        rcases exec_answers (decodeWord s.cpu.instr) s with ⟨_, h⟩ | ⟨_, _, _, _, _, h, -⟩ <;> simp [he] at h

/-! ### The step -/

theorem step_of_idle {s : State} (h : s.requests = []) : step s = cpuStep s := by
  simp [step, nextTransaction, h]

theorem step_of_request {s : State} {t : Transaction} {rest : List Transaction} (h : s.requests = t :: rest) :
    step s = perform t (s.withRequests rest) := by
  simp [step, nextTransaction, h]

/-- Everything a step can be: a step() of the CPU Engine on the state less the request for it, a load_program, a CPU
reset, or a transaction of the Cache Engine. -/
theorem step_next {s t : State} (h : step s = .next t) :
    (cpuStep (s.withRequests s.requests.tail) = .next t) ∨
    (∃ src, t = loadProgram src (s.withRequests s.requests.tail)) ∨
    (t = cpuReset (s.withRequests s.requests.tail)) ∨
    (∃ p, t = setMappingPolicy p (s.withRequests s.requests.tail)) ∨
    (∃ a, t = access a (s.withRequests s.requests.tail)) ∨
    (t = cacheReset (s.withRequests s.requests.tail)) := by
  cases hr : s.requests with
  | nil =>
    rw [step_of_idle hr] at h
    have hs : s.withRequests [] = s := by rw [← hr]; rfl
    exact .inl (by rw [List.tail_nil, hs]; exact h)
  | cons tr rest =>
    rw [step_of_request hr] at h
    cases tr with
    | loadProgram src => cases h; exact .inr (.inl ⟨src, rfl⟩)
    | step => exact .inl h
    | cpuReset => cases h; exact .inr (.inr (.inl rfl))
    | setMappingPolicy p => cases h; exact .inr (.inr (.inr (.inl ⟨p, rfl⟩)))
    | access a => cases h; exact .inr (.inr (.inr (.inr (.inl ⟨a, rfl⟩))))
    | cacheReset => cases h; exact .inr (.inr (.inr (.inr (.inr rfl))))

/-- A run of `k + 1` transactions whose first answers a next state is the run of `k` from there. -/
theorem run_succ_of_next {s t : State} (h : step s = .next t) (k : Nat) :
    Sys2Proof.core.run (k + 1) s = Sys2Proof.core.run k t := by
  have h' : Sys2Proof.core.step s = .next t := h
  simp only [Host.Core.run, h']

end Sys2Proof.Machine
end

