-- ==== Sys2Proof/Laws/CacheEngine.lean ====
section
/-! SUPPORT. The Cache Engine: the address decompositions in numbers, the selectors, the lines after an access, and
what each transaction can do. -/

namespace Sys2Proof.Machine

/-! ### Address decomposition (45_cache_engine.md R213, R216) -/

theorem directIndex_val (a : CacheAddress) : (directIndex a).val = a.toNat % 8 := by
  simp [directIndex]

theorem directTag_toNat (a : CacheAddress) : (directTag a).toNat = a.toNat / 8 := by
  have h : ∀ b : CacheAddress, (directTag b).toNat = b.toNat / 8 := by decide
  exact h a

theorem setIndex_val (a : CacheAddress) : (setIndex a).val = a.toNat % 4 := by
  simp [setIndex]

theorem setTag_toNat (a : CacheAddress) : (setTag a).toNat = a.toNat / 4 := by
  have h : ∀ b : CacheAddress, (setTag b).toNat = b.toNat / 4 := by decide
  exact h a

/-- The range check (45_cache_engine.md R211). -/
theorem admits_eq_true {address : Int} : admits address = true ↔ 0 ≤ address ∧ address < 64 := by simp [admits]

theorem admits_eq_false {address : Int} : admits address = false ↔ address < 0 ∨ 64 ≤ address := by
  rw [← Bool.not_eq_true, admits_eq_true]; omega

theorem admitted_toNat {address : Int} (h : admits address = true) : ((admitted address).toNat : Int) = address := by
  obtain ⟨h0, h1⟩ := admits_eq_true.1 h
  simp only [admitted, BitVec.toNat_ofNat]; omega

/-! ### Lines and selectors -/

theorem CacheLine.holds_eq_true {l : CacheLine} {tag : CacheAddress} :
    l.holds tag = true ↔ l.valid = true ∧ l.tag = tag := by simp [CacheLine.holds]

@[simp] theorem CacheLine.touched_valid (l : CacheLine) (n : Nat) : (l.touched n).valid = l.valid := rfl
@[simp] theorem CacheLine.touched_tag (l : CacheLine) (n : Nat) : (l.touched n).tag = l.tag := rfl
@[simp] theorem CacheLine.touched_data (l : CacheLine) (n : Nat) : (l.touched n).data = l.data := rfl
@[simp] theorem CacheLine.touched_accessTime (l : CacheLine) (n : Nat) : (l.touched n).accessTime = n := rfl
@[simp] theorem CacheLine.filled_valid (t a : CacheAddress) (n : Nat) : (filled t a n).valid = true := rfl
@[simp] theorem CacheLine.filled_tag (t a : CacheAddress) (n : Nat) : (filled t a n).tag = t := rfl
@[simp] theorem CacheLine.filled_data (t a : CacheAddress) (n : Nat) : (filled t a n).data = a := rfl
@[simp] theorem CacheLine.filled_accessTime (t a : CacheAddress) (n : Nat) : (filled t a n).accessTime = n := rfl

/-- Reading an element after one was replaced. -/
theorem getElem_set_fin {α : Type} {n : Nat} (v : Vector α n) (i j : Fin n) (x : α) :
    (v.set i x)[j] = if i = j then x else v[j] := by
  by_cases h : i = j
  · subst h; simp
  · have hne : i.val ≠ j.val := fun hv => h (Fin.ext hv)
    simp [h, hne]

theorem mem_wayOrder (w : Fin 2) : w ∈ wayOrder := by revert w; decide

theorem mem_lineOrder (i : Fin 8) : i ∈ lineOrder := by revert i; decide

theorem hitLine_eq_some {n : Nat} {lines : Vector CacheLine n} {order : List (Fin n)} {tag : CacheAddress} {i : Fin n}
    (h : hitLine lines order tag = some i) : lines[i].valid = true ∧ lines[i].tag = tag :=
  CacheLine.holds_eq_true.1 (List.find?_some (p := fun i : Fin n => lines[i].holds tag) h)

theorem hitLine_eq_none {n : Nat} {lines : Vector CacheLine n} {order : List (Fin n)} {tag : CacheAddress} :
    hitLine lines order tag = none ↔ ∀ i ∈ order, ¬ (lines[i].valid = true ∧ lines[i].tag = tag) := by
  unfold hitLine
  rw [List.find?_eq_none]
  exact forall₂_congr fun i _ => not_congr CacheLine.holds_eq_true

theorem freeLine_eq_some {n : Nat} {lines : Vector CacheLine n} {order : List (Fin n)} {i : Fin n}
    (h : freeLine lines order = some i) : lines[i].valid = false := by
  simpa using List.find?_some (p := fun i : Fin n => !lines[i].valid) h

theorem freeLine_eq_none {n : Nat} {lines : Vector CacheLine n} {order : List (Fin n)} :
    freeLine lines order = none ↔ ∀ i ∈ order, lines[i].valid = true := by
  simp [freeLine, List.find?_eq_none]

/-- The oldest line is one of those scanned, and none of them was touched earlier. -/
theorem oldestLine_spec {n : Nat} (lines : Vector CacheLine n) (first : Fin n) (rest : List (Fin n)) :
    oldestLine lines first rest ∈ first :: rest ∧
    ∀ j ∈ first :: rest, lines[oldestLine lines first rest].accessTime ≤ lines[j].accessTime := by
  induction rest generalizing first with
  | nil => exact ⟨List.mem_singleton.2 rfl, fun j hj => by rw [List.mem_singleton.1 hj]; exact le_rfl⟩
  | cons i rest ih =>
    by_cases hlt : lines[i].accessTime < lines[first].accessTime
    · have hstep : oldestLine lines first (i :: rest) = oldestLine lines i rest :=
        congrArg (oldestLine lines · rest) (if_pos hlt)
      have hlt' : lines[i].accessTime < lines[first].accessTime := hlt
      obtain ⟨hmem, hmin⟩ := ih i
      simp only [hstep]
      refine ⟨List.mem_cons_of_mem _ hmem, fun j hj => ?_⟩
      rcases List.mem_cons.1 hj with rfl | hj
      · exact (hmin i List.mem_cons_self).trans hlt'.le
      · exact hmin j hj
    · have hstep : oldestLine lines first (i :: rest) = oldestLine lines first rest :=
        congrArg (oldestLine lines · rest) (if_neg hlt)
      have hge : lines[first].accessTime ≤ lines[i].accessTime := Nat.not_lt.1 hlt
      obtain ⟨hmem, hmin⟩ := ih first
      simp only [hstep]
      refine ⟨?_, fun j hj => ?_⟩
      · rcases List.mem_cons.1 hmem with he | he
        · rw [he]; exact List.mem_cons_self
        · exact List.mem_cons_of_mem _ (List.mem_cons_of_mem _ he)
      · rcases List.mem_cons.1 hj with rfl | hj
        · exact hmin j List.mem_cons_self
        · rcases List.mem_cons.1 hj with rfl | hj
          · exact (hmin first List.mem_cons_self).trans hge
          · exact hmin j (List.mem_cons_of_mem _ hj)

/-- A scan in rising order answers the first element that passes: none before it does. -/
theorem find?_first {n : Nat} {order : List (Fin n)} (hs : order.Pairwise (· < ·)) {p : Fin n → Bool} {i j : Fin n}
    (h : order.find? p = some i) (hj : j ∈ order) (hlt : j < i) : p j = false := by
  obtain ⟨-, before, rest, rfl, hb⟩ := List.find?_eq_some_iff_append.1 h
  rcases List.mem_append.1 hj with hj | hj
  · simpa using hb j hj
  · rcases List.mem_cons.1 hj with rfl | hj
    · exact absurd hlt (lt_irrefl _)
    · have hlt' : i < j := (List.pairwise_cons.1 (List.pairwise_append.1 hs).2.1).1 j hj
      exact absurd hlt (not_lt.2 hlt'.le)

theorem lineOrder_rising : lineOrder.Pairwise (· < ·) := by decide

theorem wayOrder_rising : wayOrder.Pairwise (· < ·) := by decide

/-- No line before the hit line holds the tag. -/
theorem hitLine_first {n : Nat} {lines : Vector CacheLine n} {order : List (Fin n)} (hs : order.Pairwise (· < ·))
    {tag : CacheAddress} {i j : Fin n} (h : hitLine lines order tag = some i) (hj : j ∈ order) (hlt : j < i) :
    ¬ (lines[j].valid = true ∧ lines[j].tag = tag) := fun hh => by
  have := find?_first (p := fun i : Fin n => lines[i].holds tag) hs h hj hlt
  rw [CacheLine.holds_eq_true.2 hh] at this; cases this

/-- Every line before the first free one is valid. -/
theorem freeLine_first {n : Nat} {lines : Vector CacheLine n} {order : List (Fin n)} (hs : order.Pairwise (· < ·))
    {i j : Fin n} (h : freeLine lines order = some i) (hj : j ∈ order) (hlt : j < i) : lines[j].valid = true := by
  simpa using find?_first (p := fun i : Fin n => !lines[i].valid) hs h hj hlt

/-- Of lines with one minimum access_time the first in rising order is the oldest. -/
theorem oldestLine_first {n : Nat} {lines : Vector CacheLine n} {first : Fin n} {rest : List (Fin n)}
    (hs : (first :: rest).Pairwise (· < ·)) {j : Fin n} (hj : j ∈ first :: rest)
    (hlt : j < oldestLine lines first rest) :
    lines[oldestLine lines first rest].accessTime < lines[j].accessTime := by
  induction rest generalizing first j with
  | nil =>
    rw [List.mem_singleton.1 hj] at hlt
    exact absurd hlt (lt_irrefl first)
  | cons i rest ih =>
    obtain ⟨hfirst, hrest⟩ := List.pairwise_cons.1 hs
    by_cases hc : lines[i].accessTime < lines[first].accessTime
    · have hstep : oldestLine lines first (i :: rest) = oldestLine lines i rest :=
        congrArg (oldestLine lines · rest) (if_pos hc)
      have hc' : lines[i].accessTime < lines[first].accessTime := hc
      simp only [hstep] at hlt ⊢
      rcases List.mem_cons.1 hj with rfl | hj
      · exact ((oldestLine_spec lines i rest).2 i List.mem_cons_self).trans_lt hc'
      · exact ih hrest hj hlt
    · have hstep : oldestLine lines first (i :: rest) = oldestLine lines first rest :=
        congrArg (oldestLine lines · rest) (if_neg hc)
      have hc' : lines[first].accessTime ≤ lines[i].accessTime := Nat.not_lt.1 hc
      have hs' : (first :: rest).Pairwise (· < ·) := List.pairwise_cons.2
        ⟨fun x hx => hfirst x (List.mem_cons_of_mem i hx), (List.pairwise_cons.1 hrest).2⟩
      simp only [hstep] at hlt ⊢
      rcases List.mem_cons.1 hj with rfl | hj
      · exact ih hs' List.mem_cons_self hlt
      · rcases List.mem_cons.1 hj with rfl | hj
        · exact (ih hs' List.mem_cons_self ((hfirst j List.mem_cons_self).trans hlt)).trans_le hc'
        · exact ih hs' (List.mem_cons_of_mem first hj) hlt

/-- The victim of a full fully-associative cache: no line was touched earlier. -/
theorem victimLine_of_full {lines : Vector CacheLine 8} (h : ∀ i : Fin 8, lines[i].valid = true) :
    (victimLine lines).2 = .lru ∧
    ∀ j : Fin 8, lines[(victimLine lines).1].accessTime ≤ lines[j].accessTime := by
  have hf : freeLine lines lineOrder = none := freeLine_eq_none.2 fun i _ => h i
  have hv : victimLine lines = (oldestLine lines 0 [1, 2, 3, 4, 5, 6, 7], .lru) := by simp [victimLine, hf]
  simp only [hv]
  exact ⟨trivial, fun j => (oldestLine_spec lines 0 [1, 2, 3, 4, 5, 6, 7]).2 j (mem_lineOrder j)⟩

/-- The victim of a fully-associative cache with a free line is free. -/
theorem victimLine_of_free {lines : Vector CacheLine 8} (h : ∃ i : Fin 8, lines[i].valid = false) :
    (victimLine lines).2 = .free ∧ lines[(victimLine lines).1].valid = false := by
  cases hf : freeLine lines lineOrder with
  | none =>
    obtain ⟨i, hi⟩ := h
    rw [freeLine_eq_none.1 hf i (mem_lineOrder i)] at hi; cases hi
  | some i => simp only [victimLine, hf]; exact ⟨trivial, freeLine_eq_some hf⟩

/-- The victim way of a set: no way was touched earlier. -/
theorem victimWay_spec (ways : Vector CacheLine 2) (w : Fin 2) :
    ways[victimWay ways].accessTime ≤ ways[w].accessTime :=
  (oldestLine_spec ways 0 [1]).2 w (mem_wayOrder w)

/-! ### The whole outcome of an access -/

theorem accessDirect_of_hit {lines : Vector CacheLine 8} {a : CacheAddress}
    (h : lines[directIndex a].holds (directTag a) = true) (now : Nat) :
    accessDirect lines a now = ⟨.direct (lines.set (directIndex a) (lines[directIndex a].touched now)),
      some (directIndex a).val, directTag a, true, .line (directIndex a), none, lines[directIndex a].data⟩ := by
  simp only [accessDirect, h]; rfl

theorem accessDirect_of_miss {lines : Vector CacheLine 8} {a : CacheAddress}
    (h : lines[directIndex a].holds (directTag a) = false) (now : Nat) :
    accessDirect lines a now = ⟨.direct (lines.set (directIndex a) (.filled (directTag a) a now)),
      some (directIndex a).val, directTag a, false, .line (directIndex a), fillOf .direct lines[directIndex a], a⟩ := by
  simp only [accessDirect, h]; rfl

theorem accessSet_of_hit {sets : Vector (Vector CacheLine 2) 4} {a : CacheAddress} {w : Fin 2}
    (h : hitLine sets[setIndex a] wayOrder (setTag a) = some w) (now : Nat) :
    accessSet sets a now = ⟨.setAssociative (sets.set (setIndex a)
        (sets[setIndex a].set w (sets[setIndex a][w].touched now))),
      some (setIndex a).val, setTag a, true, .way (setIndex a) w, none, sets[setIndex a][w].data⟩ := by
  simp only [accessSet, h]; rfl

theorem accessSet_of_miss {sets : Vector (Vector CacheLine 2) 4} {a : CacheAddress}
    (h : hitLine sets[setIndex a] wayOrder (setTag a) = none) (now : Nat) :
    accessSet sets a now = ⟨.setAssociative (sets.set (setIndex a)
        (sets[setIndex a].set (victimWay sets[setIndex a]) (.filled (setTag a) a now))),
      some (setIndex a).val, setTag a, false, .way (setIndex a) (victimWay sets[setIndex a]),
      fillOf (if sets[setIndex a][victimWay sets[setIndex a]].valid then .lru else .free)
        sets[setIndex a][victimWay sets[setIndex a]], a⟩ := by
  simp only [accessSet, h]; rfl

theorem accessFull_of_hit {lines : Vector CacheLine 8} {a : CacheAddress} {i : Fin 8}
    (h : hitLine lines lineOrder a = some i) (now : Nat) :
    accessFull lines a now = ⟨.fullyAssociative (lines.set i (lines[i].touched now)), none, a, true, .line i, none,
      lines[i].data⟩ := by
  simp only [accessFull, fullTag, h]; rfl

theorem accessFull_of_miss {lines : Vector CacheLine 8} {a : CacheAddress} (h : hitLine lines lineOrder a = none)
    (now : Nat) :
    accessFull lines a now = ⟨.fullyAssociative (lines.set (victimLine lines).1 (.filled a a now)), none, a, false,
      .line (victimLine lines).1, fillOf (victimLine lines).2 lines[(victimLine lines).1], a⟩ := by
  simp only [accessFull, fullTag, h]; rfl

/-! ### The lines after an access -/

/-- Direct mapping: the one candidate line is touched or filled. -/
theorem accessDirect_store (lines : Vector CacheLine 8) (a : CacheAddress) (now : Nat) :
    (accessDirect lines a now).store = .direct (lines.set (directIndex a)
      (if lines[directIndex a].holds (directTag a) then lines[directIndex a].touched now
       else .filled (directTag a) a now)) := rfl

/-- Set-associative mapping: the way that holds the tag is touched, or the victim way is filled. -/
theorem accessSet_cases (sets : Vector (Vector CacheLine 2) 4) (a : CacheAddress) (now : Nat) :
    (∃ w : Fin 2, hitLine sets[setIndex a] wayOrder (setTag a) = some w ∧ (accessSet sets a now).hit = true ∧
      (accessSet sets a now).store = .setAssociative (sets.set (setIndex a)
        (sets[setIndex a].set w (sets[setIndex a][w].touched now)))) ∨
    (hitLine sets[setIndex a] wayOrder (setTag a) = none ∧ (accessSet sets a now).hit = false ∧
      (accessSet sets a now).store = .setAssociative (sets.set (setIndex a)
        (sets[setIndex a].set (victimWay sets[setIndex a]) (.filled (setTag a) a now)))) := by
  cases h : hitLine sets[setIndex a] wayOrder (setTag a) with
  | none => exact .inr ⟨rfl, by rw [accessSet_of_miss h], by rw [accessSet_of_miss h]⟩
  | some w => exact .inl ⟨w, rfl, by rw [accessSet_of_hit h], by rw [accessSet_of_hit h]⟩

/-- Fully-associative mapping: the line that holds the tag is touched, or the victim line is filled. -/
theorem accessFull_cases (lines : Vector CacheLine 8) (a : CacheAddress) (now : Nat) :
    (∃ i : Fin 8, hitLine lines lineOrder a = some i ∧ (accessFull lines a now).hit = true ∧
      (accessFull lines a now).store = .fullyAssociative (lines.set i (lines[i].touched now))) ∨
    (hitLine lines lineOrder a = none ∧ (accessFull lines a now).hit = false ∧
      (accessFull lines a now).store = .fullyAssociative (lines.set (victimLine lines).1 (.filled a a now))) := by
  cases h : hitLine lines lineOrder a with
  | none => exact .inr ⟨rfl, by rw [accessFull_of_miss h], by rw [accessFull_of_miss h]⟩
  | some i => exact .inl ⟨i, rfl, by rw [accessFull_of_hit h], by rw [accessFull_of_hit h]⟩

/-! ### The line an access answers from -/

@[simp] theorem CacheStore.lineAt_direct (lines : Vector CacheLine 8) (i : Fin 8) :
    (CacheStore.direct lines).lineAt (.line i) = some lines[i] := rfl
@[simp] theorem CacheStore.lineAt_setAssociative (sets : Vector (Vector CacheLine 2) 4) (k : Fin 4) (w : Fin 2) :
    (CacheStore.setAssociative sets).lineAt (.way k w) = some sets[k][w] := rfl
@[simp] theorem CacheStore.lineAt_fullyAssociative (lines : Vector CacheLine 8) (i : Fin 8) :
    (CacheStore.fullyAssociative lines).lineAt (.line i) = some lines[i] := rfl

/-- The reason a fully-associative miss gives: LRU where the line it takes was valid, FREE where not. -/
theorem victimLine_reason (lines : Vector CacheLine 8) :
    (victimLine lines).2 = if lines[(victimLine lines).1].valid then .lru else .free := by
  cases hf : freeLine lines lineOrder with
  | none =>
    have hall : ∀ i : Fin 8, lines[i].valid = true := fun i => freeLine_eq_none.1 hf i (mem_lineOrder i)
    rw [if_pos (hall _), (victimLine_of_full hall).1]
  | some i =>
    obtain ⟨hr, hv⟩ := victimLine_of_free ⟨i, freeLine_eq_some hf⟩
    rw [if_neg (by rw [hv]; decide), hr]

/-- The line at the position an outcome names, before (`old`) and after (`new`) the access: a hit touches it, a miss
fills it and says what it evicted. -/
def LineOutcome.answersFrom (o : LineOutcome) (policy : Policy) (a : CacheAddress) (now : Nat)
    (old new : CacheLine) : Prop :=
  o.data = new.data ∧
  ((o.hit = true ∧ o.fill = none ∧ old.valid = true ∧ old.tag = o.tag ∧ new = old.touched now) ∨
    (o.hit = false ∧ new = .filled o.tag a now ∧ o.fill = some
      ⟨if policy = .direct then .direct else if old.valid then .lru else .free, old.valid, old.tag⟩))

theorem accessStore_answersFrom (st : CacheStore) (a : CacheAddress) (now : Nat) :
    ∃ old new, st.lineAt (accessStore st a now).position = some old ∧
      (accessStore st a now).store.lineAt (accessStore st a now).position = some new ∧
      (accessStore st a now).answersFrom st.policy a now old new := by
  cases st with
  | direct lines =>
    refine ⟨lines[directIndex a], ?_⟩
    cases h : lines[directIndex a].holds (directTag a) with
    | true =>
      obtain ⟨hv, ht⟩ := CacheLine.holds_eq_true.1 h
      refine ⟨_, by rw [accessStore, accessDirect_of_hit h]; rfl, by rw [accessStore, accessDirect_of_hit h]; rfl, ?_⟩
      rw [getElem_set_fin, if_pos rfl, accessStore, accessDirect_of_hit h]
      exact ⟨rfl, .inl ⟨rfl, rfl, hv, ht, rfl⟩⟩
    | false =>
      refine ⟨_, by rw [accessStore, accessDirect_of_miss h]; rfl, by rw [accessStore, accessDirect_of_miss h]; rfl, ?_⟩
      rw [getElem_set_fin, if_pos rfl, accessStore, accessDirect_of_miss h]
      exact ⟨rfl, .inr ⟨rfl, rfl, rfl⟩⟩
  | setAssociative sets =>
    cases h : hitLine sets[setIndex a] wayOrder (setTag a) with
    | some w =>
      obtain ⟨hv, ht⟩ := hitLine_eq_some h
      refine ⟨sets[setIndex a][w], _, by rw [accessStore, accessSet_of_hit h]; rfl,
        by rw [accessStore, accessSet_of_hit h]; rfl, ?_⟩
      rw [getElem_set_fin, if_pos rfl, getElem_set_fin, if_pos rfl, accessStore, accessSet_of_hit h]
      exact ⟨rfl, .inl ⟨rfl, rfl, hv, ht, rfl⟩⟩
    | none =>
      refine ⟨sets[setIndex a][victimWay sets[setIndex a]], _, by rw [accessStore, accessSet_of_miss h]; rfl,
        by rw [accessStore, accessSet_of_miss h]; rfl, ?_⟩
      rw [getElem_set_fin, if_pos rfl, getElem_set_fin, if_pos rfl, accessStore, accessSet_of_miss h]
      exact ⟨rfl, .inr ⟨rfl, rfl, rfl⟩⟩
  | fullyAssociative lines =>
    cases h : hitLine lines lineOrder a with
    | some i =>
      obtain ⟨hv, ht⟩ := hitLine_eq_some h
      refine ⟨lines[i], _, by rw [accessStore, accessFull_of_hit h]; rfl,
        by rw [accessStore, accessFull_of_hit h]; rfl, ?_⟩
      rw [getElem_set_fin, if_pos rfl, accessStore, accessFull_of_hit h]
      exact ⟨rfl, .inl ⟨rfl, rfl, hv, ht, rfl⟩⟩
    | none =>
      refine ⟨lines[(victimLine lines).1], _, by rw [accessStore, accessFull_of_miss h]; rfl,
        by rw [accessStore, accessFull_of_miss h]; rfl, ?_⟩
      rw [getElem_set_fin, if_pos rfl, accessStore, accessFull_of_miss h]
      exact ⟨rfl, .inr ⟨rfl, rfl, by rw [victimLine_reason]; rfl⟩⟩

/-! ### The transactions -/

/-- access in its order of checks: halted, out of range, counter exhausted, accepted. -/
theorem access_cases (address : Int) (s : State) :
    (s.cache.fault ≠ none ∧ access address s = refuse .cacheHalted s) ∨
    (s.cache.fault = none ∧ admits address = false ∧ access address s =
      (s.withCache { s.cache with log := s.cache.log ++ [.addressRange address] }).respond
        (.accessError (.addressRange address))) ∨
    (s.cache.fault = none ∧ admits address = true ∧ s.cache.accessCount = lastCount s.params.ctrWidth ∧ access address s =
      (s.withCache { s.cache with
        log := s.cache.log ++ [.counterOverflow address], fault := some (.counterOverflow address) }).respond
        (.accessFault (.counterOverflow address))) ∨
    (s.cache.fault = none ∧ admits address = true ∧ s.cache.accessCount ≠ lastCount s.params.ctrWidth ∧
      access address s = acceptAccess address s) := by
  by_cases hf : s.cache.fault = none
  · cases ha : admits address with
    | false => exact .inr (.inl ⟨hf, rfl, by simp [access, hf, ha]⟩)
    | true =>
      by_cases hc : s.cache.accessCount = lastCount s.params.ctrWidth
      · exact .inr (.inr (.inl ⟨hf, rfl, hc, by simp [access, hf, ha, hc]⟩))
      · exact .inr (.inr (.inr ⟨hf, rfl, hc, by simp [access, hf, ha, hc]⟩))
  · exact .inl ⟨hf, by simp [access, hf]⟩

@[simp] theorem acceptAccess_cpu (a : Int) (s : State) : (acceptAccess a s).cpu = s.cpu := rfl
@[simp] theorem acceptAccess_params (a : Int) (s : State) : (acceptAccess a s).params = s.params := rfl
@[simp] theorem acceptAccess_requests (a : Int) (s : State) : (acceptAccess a s).requests = s.requests := rfl
@[simp] theorem acceptAccess_store (a : Int) (s : State) : (acceptAccess a s).cache.store =
    (accessStore s.cache.store (admitted a) (s.cache.accessCount + 1)).store := rfl
@[simp] theorem acceptAccess_accessCount (a : Int) (s : State) :
    (acceptAccess a s).cache.accessCount = s.cache.accessCount + 1 := rfl
@[simp] theorem acceptAccess_hitCount (a : Int) (s : State) : (acceptAccess a s).cache.hitCount =
    if (accessStore s.cache.store (admitted a) (s.cache.accessCount + 1)).hit then s.cache.hitCount + 1
    else s.cache.hitCount := rfl
@[simp] theorem acceptAccess_fault (a : Int) (s : State) : (acceptAccess a s).cache.fault = s.cache.fault := rfl

/-- A step whose next transaction is an access the Cache Engine accepts. -/
theorem step_of_acceptsAccess {s : State} {address : Int} {rest : List Transaction} (h : s.acceptsAccess address rest) :
    step s = .next (acceptAccess address (s.withRequests rest)) ∧ admits address = true ∧
      s.cache.accessCount ≠ lastCount s.params.ctrWidth := by
  obtain ⟨hr, hf, h0, h64, hcount⟩ := h
  have ha : admits address = true := admits_eq_true.2 ⟨h0, h64⟩
  have hc : s.cache.accessCount ≠ lastCount s.params.ctrWidth := by
    intro he; rw [he] at hcount; exact absurd hcount (lt_irrefl _)
  refine ⟨?_, ha, hc⟩
  rcases access_cases address (s.withRequests rest) with ⟨h, -⟩ | ⟨-, h, -⟩ | ⟨-, -, h, -⟩ | ⟨-, -, -, h⟩
  · exact absurd hf h
  · rw [ha] at h; cases h
  · exact absurd h hc
  · rw [step_of_request hr, perform, h]

/-- What an accepted access answers: whether it hit, and the record it logs. -/
theorem acceptAccess_output (a : Int) (s : State) : ∃ o r,
    o = accessStore s.cache.store (admitted a) (s.cache.accessCount + 1) ∧
    r = accessRecord s.cache.store.policy a o (acceptAccess a s).cache.accessCount (acceptAccess a s).cache.hitCount ∧
    (acceptAccess a s).output = some (.accessed o.hit (.access r)) ∧
    (acceptAccess a s).cache.log = s.cache.log ++ [.access r] := ⟨_, _, rfl, rfl, rfl, rfl⟩

/-- A transaction of the Cache Engine leaves the CPU record, the parameters and the pending transactions alone. -/
theorem access_frame (a : Int) (s : State) :
    (access a s).cpu = s.cpu ∧ (access a s).params = s.params ∧ (access a s).requests = s.requests := by
  rcases access_cases a s with ⟨-, h⟩ | ⟨-, -, h⟩ | ⟨-, -, -, h⟩ | ⟨-, -, -, h⟩ <;> rw [h] <;> exact ⟨rfl, rfl, rfl⟩

end Sys2Proof.Machine
end

