-- ==== Sys2Proof/Laws/PerInstr.lean ====
section
/-! SUPPORT. Per instruction: the two fields of its encoding are its opcode and its operand address, whole
(30_encoding.md R91, R103). -/

namespace Sys2Proof.Laws

theorem fields_of_append (o : Nibble) (a : OperandField) :
    opcodeField (o ++ a) = o ∧ addrField (o ++ a) = a := by
  constructor
  · apply BitVec.eq_of_getLsbD_eq
    intro k hk
    simp only [opcodeField, BitVec.getLsbD_extractLsb', BitVec.getLsbD_append, hk, decide_true, Bool.true_and]
    rw [if_neg (by omega)]
    congr 1; omega
  · apply BitVec.eq_of_getLsbD_eq
    intro k hk
    simp only [addrField, BitVec.getLsbD_extractLsb', BitVec.getLsbD_append, hk, decide_true, Bool.true_and, Nat.zero_add,
      if_true]

/-- The fields of an instruction's word are the instruction's. -/
def Fields.Statement (i : Instr) : Prop := opcodeField (encode i) = i.opcode ∧ addrField (encode i) = i.addr

theorem Fields.load (addr : OperandField) : Fields.Statement (.load addr) := fields_of_append _ addr

theorem Fields.store (addr : OperandField) : Fields.Statement (.store addr) := fields_of_append _ addr

theorem Fields.add (addr : OperandField) : Fields.Statement (.add addr) := fields_of_append _ addr

theorem Fields.nop0 (addr : OperandField) : Fields.Statement (.nop0 addr) := fields_of_append _ addr

theorem Fields.nop4 (addr : OperandField) : Fields.Statement (.nop4 addr) := fields_of_append _ addr

theorem Fields.nop5 (addr : OperandField) : Fields.Statement (.nop5 addr) := fields_of_append _ addr

theorem Fields.nop6 (addr : OperandField) : Fields.Statement (.nop6 addr) := fields_of_append _ addr

theorem Fields.nop7 (addr : OperandField) : Fields.Statement (.nop7 addr) := fields_of_append _ addr

theorem Fields.nop8 (addr : OperandField) : Fields.Statement (.nop8 addr) := fields_of_append _ addr

theorem Fields.nop9 (addr : OperandField) : Fields.Statement (.nop9 addr) := fields_of_append _ addr

theorem Fields.nopA (addr : OperandField) : Fields.Statement (.nopA addr) := fields_of_append _ addr

theorem Fields.nopB (addr : OperandField) : Fields.Statement (.nopB addr) := fields_of_append _ addr

theorem Fields.nopC (addr : OperandField) : Fields.Statement (.nopC addr) := fields_of_append _ addr

theorem Fields.nopD (addr : OperandField) : Fields.Statement (.nopD addr) := fields_of_append _ addr

theorem Fields.nopE (addr : OperandField) : Fields.Statement (.nopE addr) := fields_of_append _ addr

theorem Fields.nopF (addr : OperandField) : Fields.Statement (.nopF addr) := fields_of_append _ addr

end Sys2Proof.Laws
end

