-- ==== Sys2Proof/Laws/Words.lean ====
section
/-! SUPPORT. Words and their widths: what fits WORD_WIDTH, what ADD writes, the fields of the instruction word in a
register, and what an engine whose words fit holds. -/

namespace Sys2Proof.Machine

/-! ### Widths and the sum -/

@[simp] theorem fitsWidth_bits {n v : Nat} : fitsWidth (.bits n) v = true ↔ v < 2 ^ (16 + n) := by simp [fitsWidth]

@[simp] theorem fitsWidth_unbounded (v : Nat) : fitsWidth .unbounded v = true := rfl

/-- A 16-bit number fits every width. -/
theorem fitsWidth_of_lt {v : Nat} (h : v < 2 ^ 16) (w : WordWidth) : fitsWidth w v = true := by
  cases w with
  | bits n => exact fitsWidth_bits.2 (h.trans_le (Nat.pow_le_pow_right (by decide) (Nat.le_add_right 16 n)))
  | unbounded => rfl

theorem wrapToWidth_fits (w : WordWidth) (v : Nat) : fitsWidth w (wrapToWidth w v) = true := by
  cases w with
  | bits n => exact fitsWidth_bits.2 (Nat.mod_lt _ (Nat.two_pow_pos _))
  | unbounded => rfl

/-- An ADD that fits writes the exact sum, whatever the parameter. -/
theorem addResult_of_fits {p : Params} {a b : Nat} (h : fitsWidth p.wordWidth (a + b) = true) :
    addResult p a b = some (a + b) := if_pos h

/-- An ADD that does not fit faults, wraps or keeps the sum, by the parameter. -/
theorem addResult_of_not_fits {p : Params} {a b : Nat} (h : fitsWidth p.wordWidth (a + b) = false) :
    (p.addOverflow = .fault → addResult p a b = none) ∧
    (p.addOverflow = .wrap → addResult p a b = some (wrapToWidth p.wordWidth (a + b))) ∧
    (p.addOverflow = .unbounded → addResult p a b = some (a + b)) := by
  refine ⟨fun ho => ?_, fun ho => ?_, fun ho => ?_⟩ <;> simp [addResult, exactSum, h, ho]

/-! ### Words an engine may hold -/

theorem admitsWord_of_lt {v : Nat} (h : v < 2 ^ 16) (p : Params) : admitsWord p v = true := by
  simp [admitsWord, fitsWidth_of_lt h]

/-- What ADD writes is a word of the width in force. -/
theorem admitsWord_of_addResult {p : Params} {a b r : Nat} (h : addResult p a b = some r) : admitsWord p r = true := by
  cases hf : fitsWidth p.wordWidth (a + b) with
  | true =>
    rw [addResult_of_fits hf] at h
    cases h
    simp [admitsWord, hf]
  | false =>
    obtain ⟨hfault, hwrap, hunbounded⟩ := addResult_of_not_fits hf
    cases ho : p.addOverflow with
    | fault => rw [hfault ho] at h; cases h
    | wrap =>
      rw [hwrap ho] at h
      cases h
      simp [admitsWord, wrapToWidth_fits]
    | unbounded => simp [admitsWord, ho]

theorem Cpu.wordsFit_iff {p : Params} {c : Cpu} : c.wordsFit p = true ↔
    admitsWord p c.ac = true ∧ admitsWord p c.pc = true ∧ admitsWord p c.ir = true ∧ admitsWord p c.mar = true ∧
    admitsWord p c.mbr = true ∧ ∀ x ∈ c.mem, admitsWord p x.2 = true := by
  simp [Cpu.wordsFit, and_assoc]

/-- A cell of a memory whose listed words fit holds a word that fits. -/
theorem Memory.cell_admitted {p : Params} {m : Memory} (h : ∀ x ∈ m, admitsWord p x.2 = true) (a : Nat) :
    admitsWord p (Memory.cell m a) = true := by
  induction m with
  | nil => exact admitsWord_of_lt (v := 0) (by decide) p
  | cons x m ih =>
    obtain ⟨hx, hm⟩ := List.forall_mem_cons.1 h
    simp only [Memory.cell]
    split
    · exact hx
    · exact ih hm

/-- A write of a word that fits keeps the listed words fitting. -/
theorem Memory.put_admitted {p : Params} {m : Memory} (h : ∀ x ∈ m, admitsWord p x.2 = true) (a : Nat) {v : Nat}
    (hv : admitsWord p v = true) : ∀ x ∈ Memory.put m a v, admitsWord p x.2 = true := by
  induction m with
  | nil => unfold Memory.put; split <;> simp [hv]
  | cons x m ih =>
    obtain ⟨hx, hm⟩ := List.forall_mem_cons.1 h
    unfold Memory.put
    split
    · split
      · exact h
      · exact List.forall_mem_cons.2 ⟨hv, h⟩
    · split
      · split
        · exact hm
        · exact List.forall_mem_cons.2 ⟨hv, hm⟩
      · exact List.forall_mem_cons.2 ⟨hx, ih hm⟩

/-! ### The instruction word in a register -/

theorem opcodeField_instrWord (v : Nat) : opcodeField (instrWord v) = BitVec.ofNat 4 (v / 2 ^ 12) := by
  apply BitVec.eq_of_toNat_eq
  simp only [opcodeField, instrWord, BitVec.extractLsb'_toNat, BitVec.toNat_ofNat, Nat.shiftRight_eq_div_pow]
  omega

theorem addrField_instrWord (v : Nat) : addrField (instrWord v) = BitVec.ofNat 12 v := by
  apply BitVec.eq_of_toNat_eq
  simp only [addrField, instrWord, BitVec.extractLsb'_toNat, BitVec.toNat_ofNat, Nat.shiftRight_eq_div_pow]
  omega

@[simp] theorem instrWord_toNat (w : InstrWord) : instrWord w.toNat = w := by simp [instrWord]

end Sys2Proof.Machine
end

