-- ==== Sys2Proof/Tests/Slice0.lean ====
section
/-! SUPPORT. The model's own tests. Each expected value is the spec's: the vectors of 95_test_vectors.md or a rule worked
by hand, named beside the test. -/

namespace Sys2Proof.Machine.Tests

/-! ### Decoding: words written bit by bit from 30_encoding.md R91, R93 -/

theorem test_decode_load : decodeWord 0b0001000000001010 = .load 10 := by decide
theorem test_decode_store : decodeWord 0b0010000000001100 = .store 12 := by decide
theorem test_decode_add : decodeWord 0b0011000000001011 = .add 11 := by decide
theorem test_decode_nop0 : decodeWord 0b0000000000000101 = .nop0 5 := by decide
theorem test_decode_nop4 : decodeWord 0b0100101010111100 = .nop4 0xABC := by decide
theorem test_decode_nop5 : decodeWord 0b0101000000000001 = .nop5 1 := by decide
theorem test_decode_nop6 : decodeWord 0b0110000000000010 = .nop6 2 := by decide
theorem test_decode_nop7 : decodeWord 0b0111000000000100 = .nop7 4 := by decide
theorem test_decode_nop8 : decodeWord 0b1000000000001000 = .nop8 8 := by decide
theorem test_decode_nop9 : decodeWord 0b1001000000010000 = .nop9 16 := by decide
theorem test_decode_nopA : decodeWord 0b1010000000100000 = .nopA 32 := by decide
theorem test_decode_nopB : decodeWord 0b1011000001000000 = .nopB 64 := by decide
theorem test_decode_nopC : decodeWord 0b1100000010000000 = .nopC 128 := by decide
theorem test_decode_nopD : decodeWord 0b1101000100000000 = .nopD 256 := by decide
theorem test_decode_nopE : decodeWord 0b1110001000000000 = .nopE 512 := by decide
theorem test_decode_nopF : decodeWord 0b1111000100100011 = .nopF 0x123 := by decide

/-- 30_encoding.md R107. -/
theorem test_encode_words :
    encode (.load 10) = 0x100A ∧ encode (.add 11) = 0x300B ∧ encode (.store 12) = 0x200C := by decide

/-- Bits above `nbits` are 0, and no instruction is longer than a word (30_encoding.md R90). -/
theorem test_decodeTableWord :
    decodeTableWord 16 0x2FFF = some (.store 0xFFF) ∧ decodeTableWord 8 0x2FFF = some (.nop0 0xFF) ∧
    decodeTableWord 32 0x2FFF = none := by decide

/-- 30_encoding.md R106. -/
theorem test_spelling : spelling 0x100A = "LOAD 10".toList ∧ spelling 0x0005 = "NOP.0 5".toList ∧
    spelling 0xFFFF = "NOP.F 4095".toList := by decide

/-! ### WellFormed: an ill-formed program for each check -/

theorem test_wf_accepts : programWf [⟨"LOAD".toList, some 4095, 0⟩, ⟨"X".toList, none, 2⟩] = true := by decide
theorem test_wf_refuses_large_operand : programWf [⟨"LOAD".toList, some 4096, 0⟩] = false := by decide
theorem test_wf_refuses_missing_operand : programWf [⟨"ADD".toList, none, 0⟩] = false := by decide
theorem test_wf_refuses_line_order : programWf [⟨"X".toList, none, 1⟩, ⟨"X".toList, none, 1⟩] = false := by decide
theorem test_wf_refuses_seventeen : programWf (fillerRecords 0 17) = false ∧ programWf (fillerRecords 0 16) = true := by
  decide

/-! ### Memory -/

theorem test_memory_form : Memory.put [(3, 7)] 3 0 = [] ∧ Memory.put [(3, 7)] 1 2 = [(1, 2), (3, 7)] ∧
    Memory.wf [(3, 7), (1, 2)] = false ∧ Memory.wf [(3, 0)] = false ∧ Memory.wf [(16, 1)] = false := by decide

/-! ### Small states -/

/-- The state after an outcome, for tests that read one field of it. -/
def after (s : State) (o : Host.Outcome State Fault Refusal) : State :=
  match o with
  | .next t => t
  | .fault _ => s
  | .refused _ => s

/-- A running machine at `phase` of its first instruction, five filler records loaded. -/
def at_ (step pc ir mar ac : Nat) (mem : Memory) : State :=
  { State.reset with
    cpu := { Cpu.cleared with
      running := true, prog := fillerRecords 0 5, currentStep := step, pc := pc, ir := ir, mar := mar,
      mbr := ir, ac := ac, mem := mem } }

/-- The same machine under other parameter values. -/
def under (o : AddOverflow) (everyStep clears : Bool) (s : State) : State :=
  { s with
    params := { s.params with addOverflow := o, stopCheckEveryMicroStep := everyStep, loadClearsMemory := clears } }

/-- The same machine with another WORD_WIDTH and another CTR_W. -/
def wide (w : WordWidth) (ctrWidth : Nat) (s : State) : State :=
  { s with params := { s.params with wordWidth := w, ctrWidth := ctrWidth } }

/-- A cache of one policy, freshly configured (70_reset_and_hazards.md R293), and pending transactions. -/
def cached (p : Policy) (count : Nat) (requests : List Transaction) : State :=
  { State.reset with
    cache := { Cache.powerOn p with accessCount := count }, requests := requests }

/-! ### EXECUTE: the vectors V-LOAD, V-STORE, V-ADD, V-NOP of 95_test_vectors.md -/

theorem test_load : (after .reset (exec (.load 10) (at_ 2 1 0x100A 10 7 [(10, 5)]))).cpu =
    { (at_ 2 1 0x100A 10 7 [(10, 5)]).cpu with mbr := 5, ac := 5 } := by decide
theorem test_load_range : (after .reset (step (at_ 2 1 0x1010 16 7 []))).cpu =
    { (at_ 2 1 0x1010 16 7 []).cpu with fault := some (.operandRange 1 16), running := false } := by decide
theorem test_store : (after .reset (exec (.store 12) (at_ 2 1 0x200C 12 8 [(10, 5)]))).cpu =
    { (at_ 2 1 0x200C 12 8 [(10, 5)]).cpu with mbr := 8, mem := [(10, 5), (12, 8)] } := by decide
theorem test_store_range : (after .reset (exec (.store 4095) (at_ 2 1 0x2FFF 4095 1 []))).cpu.fault =
    some (.operandRange 2 4095) := by decide
theorem test_add_largest : (after .reset (exec (.add 15) (at_ 2 1 0x300F 15 0xFFFE [(15, 1)]))).cpu =
    { (at_ 2 1 0x300F 15 0xFFFE [(15, 1)]).cpu with mbr := 1, ac := 0xFFFF } := by decide
theorem test_add_overflow :
    (after .reset (step (at_ 2 1 0x300F 15 0xFFFF [(15, 1)]))).cpu =
      { (at_ 2 1 0x300F 15 0xFFFF [(15, 1)]).cpu with
        fault := some (.addOverflow 0xFFFF 1 0x10000), running := false } ∧
    (after .reset (exec (.add 15) (under .wrap true false (at_ 2 1 0x300F 15 0xF000 [(15, 0x3000)])))).cpu.ac =
      0x2000 := by decide
/-- WORD_WIDTH unbounded (95_test_vectors.md V-ADD), or wider than 16 bits: the sum that fits is exact (00_scope.md R8). -/
theorem test_add_wide :
    (after .reset (exec (.add 15) (under .unbounded true false (wide .unbounded 32
      (at_ 2 1 0x300F 15 0xFFFF [(15, 0xFFFF)]))))).cpu.ac = 0x1FFFE ∧
    (after .reset (exec (.add 15) (wide (.bits 1) 32 (at_ 2 1 0x300F 15 0xFFFF [(15, 0xFFFF)])))).cpu.ac = 0x1FFFE ∧
    (after .reset (exec (.add 15) (wide (.bits 1) 32 (at_ 2 1 0x300F 15 0x1FFFF [(15, 1)])))).cpu.fault =
      some (.addOverflow 0x1FFFF 1 0x20000) := by decide
/-- The instruction of a wide IR is its bits 15:0 (00_scope.md R9, 30_encoding.md R91). -/
theorem test_decode_wide : (after .reset (step (wide .unbounded 32 (at_ 1 1 0x12FFF 0 0 [])))).cpu.mar = 0xFFF := by
  decide
/-- No range check and no change but the count (41_cpu_instructions.md R158). -/
theorem test_nop : (after .reset (step (at_ 2 1 0x4ABC 0xABC 9 [(1, 2)]))).cpu =
    { (at_ 2 1 0x4ABC 0xABC 9 [(1, 2)]).cpu with currentStep := 3 } := by decide
/-- Every other unassigned opcode, of the instruction word with address 4095: the same effect. -/
theorem test_every_nop :
    [0x0FFF, 0x5FFF, 0x6FFF, 0x7FFF, 0x8FFF, 0x9FFF, 0xAFFF, 0xBFFF, 0xCFFF, 0xDFFF, 0xEFFF, 0xFFFF].all (fun w =>
      decide ((after .reset (step (at_ 2 1 w 4095 9 []))).cpu =
        { (at_ 2 1 w 4095 9 []).cpu with currentStep := 3 })) = true := by decide

/-! ### FETCH, DECODE, stop: the vectors V-FETCH, V-DECODE, V-STOP -/

theorem test_fetch : (after .reset (step (at_ 0 0 0 0 0 [(0, 0x100A)]))).cpu =
    { (at_ 0 0 0 0 0 [(0, 0x100A)]).cpu with mar := 0, mbr := 0x100A, ir := 0x100A, pc := 1, currentStep := 1 } := by
  decide
theorem test_fetch_output : (after .reset (step (at_ 0 0 0 0 0 [(0, 0x100A)]))).output =
    some (.stepped (.fetch 0 0x100A 1) [.mar, .mbr, .ir, .pc] [0]) := by decide
theorem test_decode : (after .reset (step (at_ 1 1 0x2FFF 0 0 []))).cpu.mar = 4095 ∧
    (after .reset (step (at_ 1 1 0xF123 0 0 []))).cpu.mar = 291 := by decide
theorem test_stop_after_reset : (after .reset (step .reset)).cpu = State.reset.cpu ∧
    (after .reset (step .reset)).output = some (.stepped (.stopped .notRunning) [] []) := by decide
theorem test_stop_exhausted : (after .reset (step (at_ 1 5 0x100A 0 0 []))).output =
    some (.stepped (.stopped .pcExhausted) [] []) := by decide
theorem test_no_stop_alternative :
    (after .reset (step (under .fault false false (at_ 1 5 0x100A 0 0 [])))).cpu.mar = 10 := by decide
/-- Fetching outside M is the model's own stop (log 8): no run reaches it. -/
theorem test_fetch_outside : (step { at_ 0 16 0 0 0 [] with
    cpu := { (at_ 0 16 0 0 0 []).cpu with prog := fillerRecords 0 17 } }) = .fault (.fetchOutsideMemory 16) := by rfl

/-! ### The word a host places runs at the very next step -/

theorem test_withFetchWord_load : (after .reset (step (State.reset.withFetchWord 16 0x1000))).cpu.ac = 0x1000 := by
  decide
theorem test_withFetchWord_is_execute : (State.reset.withFetchWord 16 0x2FFF).stops = false ∧
    (State.reset.withFetchWord 16 0x2FFF).cpu.phase = .execute ∧
    decodeWord (State.reset.withFetchWord 16 0x2FFF).cpu.instr = .store 0xFFF ∧
    (State.reset.withFetchWord 16 0x2FFF).cpu.mar = 0xFFF := by decide

/-! ### load_program: the vectors V-ENC and V-LOADPROG -/

theorem test_assemble_words :
    assembleLine 0 "load 10".toList = .ok (some (⟨"LOAD".toList, some 10, 0⟩, 0x100A)) ∧
    assembleLine 0 "  Add   4095 ".toList = .ok (some (⟨"ADD".toList, some 4095, 0⟩, 0x3FFF)) ∧
    assembleLine 0 "LOAD 007".toList = .ok (some (⟨"LOAD".toList, some 7, 0⟩, 0x1007)) ∧
    assembleLine 0 "store 15\r".toList = .ok (some (⟨"STORE".toList, some 15, 0⟩, 0x200F)) ∧
    assembleLine 0 "JMP 3".toList = .ok (some (⟨"JMP".toList, some 3, 0⟩, 0)) := by decide
theorem test_assemble_refusals :
    assembleLine 0 "LOAD 4096".toList = .error .operandTooLarge ∧ assembleLine 0 "LOAD -1".toList = .error .badOperand ∧
    assembleLine 0 "LOAD 0x10".toList = .error .badOperand ∧ assembleLine 0 "LOAD".toList = .error .missingOperand ∧
    assembleLine 0 "LOAD 1 2".toList = .error .badSyntax ∧ assembleLine 0 " \t\r".toList = .ok none := by decide
/-- Placement with blank lines (95_test_vectors.md V-ENC). -/
theorem test_load_program : (loadProgram "\nLOAD 10\n\n  add 11  \nSTORE 13\nx".toList .reset).cpu =
    Cpu.launched [⟨"LOAD".toList, some 10, 1⟩, ⟨"ADD".toList, some 11, 3⟩, ⟨"STORE".toList, some 13, 4⟩,
      ⟨"X".toList, none, 5⟩] [(0, 0x100A), (1, 0x300B), (2, 0x200D), (10, 5), (11, 3)] := by decide
theorem test_load_keeps_or_clears :
    (loadProgram "X".toList (at_ 0 0 0 0 0 [(15, 9)])).cpu.mem = [(10, 5), (11, 3), (15, 9)] ∧
    (loadProgram "X".toList (under .fault true true (at_ 0 0 0 0 0 [(15, 9)]))).cpu.mem = [(10, 5), (11, 3)] := by
  decide
theorem test_load_too_long :
    (loadProgram "X\nX\nX\nX\nX\nX\nX\nX\nX\nX\nX\nX\nX\nX\nX\nX\nX".toList .reset).output =
      some (.refused .programTooLong) := by decide

/-! ### The cache: the vectors V-CDEC, V-VICTIM, V-CNT, L1-3, L1-8 -/

theorem test_decomposition : directIndex 37 = 5 ∧ directTag 37 = 4 ∧ setIndex 37 = 1 ∧ setTag 37 = 9 ∧
    directIndex 63 = 7 ∧ directTag 63 = 7 ∧ setIndex 63 = 3 ∧ setTag 63 = 15 ∧ fullTag 63 = 63 := by decide
/-- A line for the selector vectors, by valid and access_time. -/
def line (valid : Bool) (time : Nat) : CacheLine := ⟨valid, 0, 0, time⟩
theorem test_victim_way : victimWay #v[line false 0, line false 0] = 0 ∧ victimWay #v[line true 1, line false 0] = 1 ∧
    victimWay #v[line false 0, line true 5] = 0 ∧ victimWay #v[line true 7, line true 3] = 1 := by decide
theorem test_victim_line :
    victimLine #v[line true 9, line true 2, line true 3, line true 4, line true 5, line true 6, line true 7,
      line true 8] = (1, .lru) ∧
    victimLine #v[line true 1, line true 2, line true 3, line true 4, line true 5, line false 0, line true 7,
      line true 8] = (5, .free) := by decide
theorem test_access_miss : (after .reset (step (cached .direct 0 [.access 13]))).cache.store =
    .direct ((Vector.replicate 8 CacheLine.cleared).set 5 ⟨true, 1, 13, 1⟩) := by decide
theorem test_access_record : (after .reset (step (cached .setAssociative 0 [.access 3]))).output =
    some (.accessed false (.access ⟨.setAssociative, 3, some 3, 0, false, .way 3 0, some ⟨.free, false, 0⟩, 3, 1, 0⟩)) := by
  decide
theorem test_access_range : (after .reset (step (cached .direct 0xFFFFFFFF [.access 64]))).cache.log =
    [.addressRange 64] ∧ (after .reset (step (cached .direct 0 [.access (-1)]))).cache.log = [.addressRange (-1)] := by
  decide
theorem test_counter_overflow : (after .reset (step (cached .direct 0xFFFFFFFF [.access 0]))).cache =
    { (cached .direct 0xFFFFFFFF []).cache with
      log := [.counterOverflow 0], fault := some (.counterOverflow 0) } := by decide
/-- CTR_W = 2: the fourth access since the last clear finds the last count (45_cache_engine.md R211). -/
theorem test_counter_width : (after .reset (step (wide (.bits 0) 2 (cached .direct 3 [.access 0])))).cache.fault =
    some (.counterOverflow 0) ∧
    (after .reset (step (wide (.bits 0) 2 (cached .direct 2 [.access 0])))).cache.accessCount = 3 := by decide
theorem test_cache_reset : (after .reset (step (cached .setAssociative 7 [.cacheReset]))).cache =
    { Cache.powerOn .setAssociative with log := [.reset] } := by decide

end Sys2Proof.Machine.Tests
end

