-- ==== Sys2Proof/Tests/Witnesses.lean ====
section
/-! SUPPORT. For every statement of Certificates/Slice0/Obligations.lean that has hypotheses, a concrete state and
operands that meet them together, one for each clause, at the clause's boundary. -/

namespace Sys2Proof.Machine.Tests

/-! ### Encoding -/

theorem witness_OpcodeBitsAloneSelect :
    (0x1FFF : InstrWord).extractLsb' 12 4 = 0x1#4 ∧ (0x2000 : InstrWord).extractLsb' 12 4 = 0x2#4 ∧
    (0x3FFF : InstrWord).extractLsb' 12 4 = 0x3#4 ∧
    ((0x4000 : InstrWord).extractLsb' 12 4 ≠ 0x1#4 ∧ (0x4000 : InstrWord).extractLsb' 12 4 ≠ 0x2#4 ∧
      (0x4000 : InstrWord).extractLsb' 12 4 ≠ 0x3#4) ∧
    ((0x0FFF : InstrWord).extractLsb' 12 4 ≠ 0x1#4 ∧ (0x0FFF : InstrWord).extractLsb' 12 4 ≠ 0x2#4 ∧
      (0x0FFF : InstrWord).extractLsb' 12 4 ≠ 0x3#4) := by decide

/-! ### EXECUTE -/

theorem witness_LoadResult : (at_ 2 1 0x100F 15 7 [(15, 9)]).cpu.mar < 16 ∧
    16 ≤ (at_ 2 1 0x1010 16 7 [(15, 9)]).cpu.mar := by decide
theorem witness_StoreResult : (at_ 2 1 0x200F 15 7 [(15, 9)]).cpu.mem.wf = true ∧
    (at_ 2 1 0x200F 15 7 [(15, 9)]).cpu.operandAddress < 16 ∧ (at_ 2 1 0x2010 16 7 [(15, 9)]).cpu.mem.wf = true ∧
    16 ≤ (at_ 2 1 0x2010 16 7 [(15, 9)]).cpu.operandAddress := by decide
/-- The largest sum that fits 16 bits, a sum beyond them in 17 bits, and one under each way to unbounded words. -/
theorem witness_AddResult_exact :
    (let s := at_ 2 1 0x300F 15 0xFFFE [(15, 1)]
     s.cpu.mar < 16 ∧ s.params.wordWidth = .bits 0 ∧ s.cpu.ac + Memory.cell s.cpu.mem 15 < 2 ^ 16) ∧
    (let s := wide (.bits 1) 32 (at_ 2 1 0x300F 15 0xFFFF [(15, 0xFFFF)])
     s.cpu.mar < 16 ∧ s.params.wordWidth = .bits 1 ∧ s.cpu.ac + Memory.cell s.cpu.mem 15 < 2 ^ 17) ∧
    (let s := wide .unbounded 32 (at_ 2 1 0x300F 15 0xFFFF [(15, 0xFFFF)])
     s.cpu.mar < 16 ∧ s.params.wordWidth = .unbounded) ∧
    (let s := under .unbounded true false (at_ 2 1 0x300F 15 0xFFFF [(15, 0xFFFF)])
     s.cpu.mar < 16 ∧ s.params.addOverflow = .unbounded) := by decide
theorem witness_AddResult_exceeds :
    (let s := under .wrap true false (at_ 2 1 0x300F 15 0xFFFF [(15, 1)])
     s.cpu.mar < 16 ∧ s.params.addOverflow = .wrap ∧ s.params.wordWidth = .bits 0) ∧
    (let s := wide (.bits 1) 32 (at_ 2 1 0x300F 15 0x1FFFF [(15, 1)])
     s.cpu.mar < 16 ∧ s.params.wordWidth = .bits 1 ∧ 2 ^ (16 + 1) ≤ s.cpu.ac + Memory.cell s.cpu.mem 15 ∧
     s.params.addOverflow = .fault) ∧
    16 ≤ (at_ 2 1 0x3010 16 0xFFFF []).cpu.mar := by decide
theorem witness_UnassignedOpcodeResult :
    Instr.nop0 0xFFF ∈ [Instr.nop0 0xFFF, .nop4 0xFFF, .nop5 0xFFF, .nop6 0xFFF, .nop7 0xFFF, .nop8 0xFFF, .nop9 0xFFF,
      .nopA 0xFFF, .nopB 0xFFF, .nopC 0xFFF, .nopD 0xFFF, .nopE 0xFFF, .nopF 0xFFF] ∧
    (at_ 2 1 0x0FFF 0xFFF 9 []).atPhase .execute ∧
    decodeWord (instrWord (at_ 2 1 0x0FFF 0xFFF 9 []).cpu.ir) = .nop0 0xFFF :=
  ⟨by decide, ⟨rfl, by decide, by decide⟩, by decide⟩
theorem witness_ExecuteFrame :
    (∃ t, exec (.nop4 9) (at_ 2 1 0x4009 9 7 [(9, 1)]) = .next t) ∧
    (∃ t, exec (.load 9) (at_ 2 1 0x1009 9 7 [(9, 1)]) = .next t) ∧
    (∃ t, exec (.store 9) (at_ 2 1 0x2009 9 7 [(9, 1)]) = .next t) :=
  ⟨⟨_, rfl⟩, ⟨_, rfl⟩, ⟨_, rfl⟩⟩
theorem witness_ExecuteFaultAtStep_range : (at_ 2 1 0x2010 16 7 []).atPhase .execute ∧
    16 ≤ (at_ 2 1 0x2010 16 7 []).cpu.mar ∧
    (at_ 2 1 0x2010 16 7 []).cpu.ir / 2 ^ 12 % 16 ∈ [1, 2, 3] :=
  ⟨⟨rfl, by decide, by decide⟩, by decide, by decide⟩
theorem witness_ExecuteFaultAtStep_overflow : (at_ 2 1 0x300F 15 0xFFFF [(15, 1)]).atPhase .execute ∧
    (at_ 2 1 0x300F 15 0xFFFF [(15, 1)]).cpu.mar < 16 ∧
    (at_ 2 1 0x300F 15 0xFFFF [(15, 1)]).cpu.ir / 2 ^ 12 % 16 = 3 ∧
    (at_ 2 1 0x300F 15 0xFFFF [(15, 1)]).params.addOverflow = .fault ∧
    (at_ 2 1 0x300F 15 0xFFFF [(15, 1)]).params.wordWidth = .bits 0 ∧
    2 ^ (16 + 0) ≤ (at_ 2 1 0x300F 15 0xFFFF [(15, 1)]).cpu.ac +
      Memory.cell (at_ 2 1 0x300F 15 0xFFFF [(15, 1)]).cpu.mem 15 :=
  ⟨⟨rfl, by decide, by decide⟩, by decide, by decide, by decide, by decide, by decide⟩

/-! ### The instruction cycle -/

theorem witness_StepRunsDecodedInstruction : (at_ 2 1 0x100F 15 7 [(15, 9)]).atPhase .execute ∧
    decodeWord (instrWord (at_ 2 1 0x100F 15 7 [(15, 9)]).cpu.ir) = .load 15 :=
  ⟨⟨rfl, by decide, by decide⟩, by decide⟩
/-- The last FETCH of the program, at cell progLen − 1. -/
theorem witness_FetchResult : (at_ 12 4 0 0 0 [(4, 0x100A)]).atPhase .fetch ∧
    (at_ 12 4 0 0 0 [(4, 0x100A)]).cpu.progLen ≤ 16 :=
  ⟨⟨rfl, by decide, by decide⟩, by decide⟩
theorem witness_DecodeResult : (at_ 1 1 0xFFFF 0 0 []).atPhase .decode := ⟨rfl, by decide, by decide⟩
theorem witness_StopResult :
    ((at_ 1 5 0 0 0 []).requests = [] ∧ (at_ 1 5 0 0 0 []).params.stopCheckEveryMicroStep = true ∧
      (at_ 1 5 0 0 0 []).cpu.progLen ≤ (at_ 1 5 0 0 0 []).cpu.pc) ∧
    (State.reset.requests = [] ∧ State.reset.cpu.running = false) ∧
    ((at_ 1 4 0 0 0 []).cpu.running = true ∧ (at_ 1 4 0 0 0 []).cpu.pc < (at_ 1 4 0 0 0 []).cpu.progLen) := by
  decide
theorem witness_AlternativeStopResult :
    (let s := under .fault false false (at_ 15 5 0 0 0 [])
     s.requests = [] ∧ s.params.stopCheckEveryMicroStep = false ∧ s.cpu.currentStep % 3 = 0 ∧
     s.cpu.progLen ≤ s.cpu.pc) ∧
    (let s := under .fault false false .reset
     s.requests = [] ∧ s.params.stopCheckEveryMicroStep = false ∧ s.cpu.running = false) ∧
    (let s := under .fault false false (at_ 13 5 0 0 0 [])
     s.requests = [] ∧ s.cpu.running = true ∧ s.cpu.currentStep % 3 ≠ 0) := by decide
theorem witness_InstructionTakesThreeSteps : (at_ 9 3 0 0 0 [(3, 0x100A)]).atPhase .fetch ∧
    (at_ 9 3 0 0 0 [(3, 0x100A)]).cpu.progLen ≤ 16 ∧
    (at_ 9 3 0 0 0 [(3, 0x100A)]).cpu.pc + 1 < (at_ 9 3 0 0 0 [(3, 0x100A)]).cpu.progLen ∧
    (under .fault false false (at_ 12 4 0 0 0 [(4, 0x100A)])).atPhase .fetch ∧
    (under .fault false false (at_ 12 4 0 0 0 [(4, 0x100A)])).params.stopCheckEveryMicroStep = false :=
  ⟨⟨rfl, by decide, by decide⟩, by decide, by decide, ⟨rfl, by decide, by decide⟩, by decide⟩
theorem witness_OperandIsAbsoluteAddress :
    ((at_ 0 0 0 0 7 [(0, 0x100F)]).atPhase .fetch ∧ (at_ 0 0 0 0 7 [(0, 0x100F)]).cpu.mem.wf = true ∧
      (at_ 0 0 0 0 7 [(0, 0x100F)]).cpu.pc + 1 < (at_ 0 0 0 0 7 [(0, 0x100F)]).cpu.progLen) ∧
    (15 : OperandField).toNat < 16 ∧
    Memory.cell (at_ 0 0 0 0 7 [(0, 0x100F)]).cpu.mem 0 = 0x1000 + (15 : OperandField).toNat ∧
    Memory.cell (at_ 0 0 0 0 7 [(0, 0x200F)]).cpu.mem 0 = 0x2000 + (15 : OperandField).toNat ∧
    Memory.cell (at_ 0 0 0 0 7 [(0, 0x300F)]).cpu.mem 0 = 0x3000 + (15 : OperandField).toNat ∧
    (at_ 0 0 0 0 0xFFFF [(0, 0x300F)]).cpu.ac +
      Memory.cell (at_ 0 0 0 0 0xFFFF [(0, 0x300F)]).cpu.mem 15 ≤ 0xFFFF :=
  ⟨⟨⟨rfl, by decide, by decide⟩, by decide, by decide⟩, by decide, by decide, by decide, by decide, by decide⟩
theorem witness_FetchSeesStore : (at_ 2 1 0x2001 1 0x300B []).atPhase .execute ∧
    (at_ 2 1 0x2001 1 0x300B []).cpu.progLen ≤ 16 ∧ (at_ 2 1 0x2001 1 0x300B []).cpu.mem.wf = true ∧
    (at_ 2 1 0x2001 1 0x300B []).cpu.pc < (at_ 2 1 0x2001 1 0x300B []).cpu.progLen ∧
    (at_ 2 1 0x2001 1 0x300B []).cpu.ir / 2 ^ 12 % 16 = 2 ∧
    (at_ 2 1 0x2001 1 0x300B []).cpu.mar = (at_ 2 1 0x2001 1 0x300B []).cpu.pc :=
  ⟨⟨rfl, by decide, by decide⟩, by decide, by decide, by decide, by decide, by decide⟩
theorem witness_ModeAfterStep :
    ((∃ t, step (at_ 1 5 0 0 0 []) = .next t) ∧ (at_ 1 5 0 0 0 []).stops = true) ∧
    ((∃ t, step (at_ 0 0 0 0 0 []) = .next t) ∧ (at_ 0 0 0 0 0 []).stops = false ∧
      (at_ 0 0 0 0 0 []).cpu.mode = .fetch) ∧
    ((∃ t, step (at_ 1 1 0 0 0 []) = .next t) ∧ (at_ 1 1 0 0 0 []).stops = false ∧
      (at_ 1 1 0 0 0 []).cpu.mode = .decode) ∧
    ((∃ t, step (at_ 2 1 0 0 0 []) = .next t) ∧ (at_ 2 1 0 0 0 []).stops = false ∧
      (at_ 2 1 0 0 0 []).cpu.mode = .execute) :=
  ⟨⟨⟨_, rfl⟩, by decide⟩, ⟨⟨_, rfl⟩, by decide, by decide⟩, ⟨⟨_, rfl⟩, by decide, by decide⟩,
    ⟨⟨_, rfl⟩, by decide, by decide⟩⟩

/-- The machine after OPERAND_RANGE (95_test_vectors.md P3), with pending transactions. -/
def faultedMachine (requests : List Transaction) : State :=
  { State.reset with
    cpu := { Cpu.cleared with
      prog := fillerRecords 0 3, currentStep := 5, pc := 2, ir := 0x2014, mar := 20, mbr := 0x2014, ac := 5,
      mem := [(0, 0x100A), (1, 0x2014), (10, 5), (11, 3)], fault := some (.operandRange 2 20) },
    requests := requests }

theorem witness_FaultedEngineStaysStopped : (faultedMachine []).requests = [] ∧ (faultedMachine []).cpu.fault ≠ none ∧
    (faultedMachine []).cpu.running = false := by decide
theorem witness_OnlyReinitialisationClearsFault :
    (∃ t, step (faultedMachine [.cpuReset]) = .next t ∧ t.cpu.fault = none) ∧
    (∃ t, step (faultedMachine [.loadProgram []]) = .next t ∧ t.cpu.fault = none) ∧
    (faultedMachine []).cpu.fault ≠ none :=
  ⟨⟨_, rfl, rfl⟩, ⟨_, rfl, rfl⟩, by decide⟩

/-- A machine with sixteen records just loaded. -/
def loadedMachine (everyStep : Bool) : State :=
  { under .fault everyStep false .reset with cpu := Cpu.launched (fillerRecords 0 16) [(10, 5), (11, 3)] }

theorem witness_loadedMachine_invariant (b : Bool) : (loadedMachine b).cpu.Inv (loadedMachine b).params := by
  cases b <;> (unfold Cpu.Inv; decide)
theorem witness_EngineStopsWithin49Steps : (loadedMachine true).cpu.Inv (loadedMachine true).params ∧
    (loadedMachine true).requests = [] :=
  ⟨witness_loadedMachine_invariant true, rfl⟩
theorem witness_MicroStepsUntilStop :
    ((loadedMachine true).cpu.Inv (loadedMachine true).params ∧ (loadedMachine true).requests = [] ∧
      (loadedMachine true).cpu.running = true ∧
      (loadedMachine true).cpu.currentStep = 0 ∧ (loadedMachine true).cpu.progLen = 16 ∧
      (loadedMachine true).params.stopCheckEveryMicroStep = true) ∧
    ((loadedMachine false).cpu.Inv (loadedMachine false).params ∧ (loadedMachine false).requests = [] ∧
      (loadedMachine false).cpu.running = true ∧
      (loadedMachine false).cpu.currentStep = 0 ∧ (loadedMachine false).cpu.progLen = 16 ∧
      (loadedMachine false).params.stopCheckEveryMicroStep = false) :=
  ⟨⟨witness_loadedMachine_invariant true, rfl, rfl, rfl, rfl, rfl⟩,
    witness_loadedMachine_invariant false, rfl, rfl, rfl, rfl, rfl⟩

/-! ### Invariants -/

theorem witness_StepKeepsCpuInvariant : (loadedMachine true).cpu.Inv (loadedMachine true).params ∧
    ∃ t, step (loadedMachine true) = .next t :=
  ⟨witness_loadedMachine_invariant true, _, rfl⟩
/-- Wide words, as an ADD under unbounded words leaves them. -/
theorem witness_StepKeepsCpuInvariant_wide :
    (at_ 2 1 0x300F 15 0x1FFFE [(15, 0x1FFFE)]).cpu.Inv { Params.taken with addOverflow := .unbounded } ∧
    (at_ 2 1 0x300F 15 0x1FFFE [(15, 0x1FFFE)]).cpu.Inv { Params.taken with wordWidth := .bits 1 } ∧
    ¬ (at_ 2 1 0x300F 15 0x1FFFE [(15, 0x1FFFE)]).cpu.Inv .taken := by unfold Cpu.Inv; decide
theorem witness_StepNeverStuck : (at_ 2 1 0x1FFF 0xFFF 0 []).cpu.Inv .taken := by unfold Cpu.Inv; decide
theorem witness_StepConsumesOneRequest : ∃ t, step (faultedMachine [.cpuReset, .step]) = .next t := ⟨_, rfl⟩
theorem witness_OnlyStoreLoadAndResetWriteMemory :
    (∃ t, step (at_ 2 1 0x200F 15 7 []) = .next t ∧ t.cpu.mem ≠ []) ∧
    (∃ t, step (faultedMachine [.cpuReset]) = .next t ∧ t.cpu.mem ≠ (faultedMachine []).cpu.mem) ∧
    (∃ t, step { State.reset with requests := [.loadProgram []] } = .next t ∧ t.cpu.mem ≠ []) ∧
    (∃ t, step { at_ 2 1 0x200F 15 7 [] with requests := [.step] } = .next t ∧ t.cpu.mem ≠ []) :=
  ⟨⟨_, rfl, by decide⟩, ⟨_, rfl, by decide⟩, ⟨_, rfl, by decide⟩, ⟨_, rfl, by decide⟩⟩
theorem witness_CpuIndependentOfCache : (loadedMachine true).cpuTurn = true ∧
    ∃ t, step (loadedMachine true) = .next t :=
  ⟨rfl, _, rfl⟩
theorem witness_CacheIndependentOfCpu : (cached .direct 0 [.access 5]).cpuTurn = false ∧
    ∃ t, step (cached .direct 0 [.access 5]) = .next t :=
  ⟨rfl, _, rfl⟩

/-! ### Host operations of the CPU Engine -/

theorem witness_CpuResetResult : (faultedMachine [.cpuReset]).requests = [.cpuReset] := rfl
theorem witness_CpuResetIdempotent : (faultedMachine [.cpuReset, .cpuReset]).requests = [.cpuReset, .cpuReset] := rfl
/-- One record, so the clauses meet at cells 0 and 1. -/
theorem witness_LoadProgramResult :
    (faultedMachine [.loadProgram "ADD 0".toList]).requests = [.loadProgram "ADD 0".toList] ∧
    assemble "ADD 0".toList = .ok [(⟨"ADD".toList, some 0, 0⟩, 0x3000)] ∧ (faultedMachine []).cpu.mem.wf = true ∧
    ([(⟨"ADD".toList, some 0, 0⟩, 0x3000)] : List Assembled)[0]? = some (⟨"ADD".toList, some 0, 0⟩, 0x3000) ∧
    ([(⟨"ADD".toList, some 0, 0⟩, 0x3000)] : List Assembled).length ≤ 1 := by decide
theorem witness_LoadProgramRefused :
    (faultedMachine [.loadProgram "ADD 4096".toList]).requests = [.loadProgram "ADD 4096".toList] ∧
    assemble "ADD 4096".toList = .error .operandTooLarge := by decide
theorem witness_SourceLineResult_shapes :
    tokens " \t\r".toList = [] ∧ tokens "ADD 1 2".toList = ["ADD".toList, "1".toList, "2".toList] ∧
    tokens "add".toList = ["add".toList] ∧ tokens "add 4095".toList = ["add".toList, "4095".toList] ∧
    mnemonicInstr (upperCase "HALT".toList) = none ∧ tokens "HALT 3".toList = ["HALT".toList, "3".toList] ∧
    tokens "HALT".toList = ["HALT".toList] := by decide
theorem witness_SourceLineResult_operands : mnemonicInstr (upperCase "add".toList) = some .add ∧
    decimalValue "-1".toList = none ∧ decimalValue "4096".toList = some 4096 ∧
    decimalValue "4095".toList = some 4095 :=
  ⟨rfl, by decide, by decide, by decide⟩
/-- Seventeen one-token lines, none refused. -/
def seventeenLines : List Char := (List.replicate 17 ['X', '\n']).flatten
theorem witness_LongProgramRefused :
    (faultedMachine [.loadProgram seventeenLines]).requests = [.loadProgram seventeenLines] ∧
    ∃ items, assembleLines 0 (sourceLines seventeenLines) = .ok items ∧
    16 < items.length :=
  ⟨rfl, (List.range 17).map fun n => (⟨['X'], none, n⟩, 0), by decide, by decide⟩

/-! ### The Cache Engine -/

/-- A valid line that holds address `n`, touched at access `n + 1`. -/
def heldLine (n : Nat) : CacheLine := ⟨true, BitVec.ofNat 6 n, BitVec.ofNat 6 n, n + 1⟩

/-- A fully-associative cache of eight valid lines, line i holding address i, touched in order, and transactions. -/
def fullCache (requests : List Transaction) : State :=
  { State.reset with
    cache := {
      store := .fullyAssociative #v[heldLine 0, heldLine 1, heldLine 2, heldLine 3, heldLine 4, heldLine 5, heldLine 6,
        heldLine 7], accessCount := 8, hitCount := 0, log := [], fault := none },
    requests := requests }

/-- A set-associative cache whose set 1 holds addresses 1 and 5 (95_test_vectors.md L1-4). -/
def fullSet (requests : List Transaction) : State :=
  { State.reset with
    cache := {
      store := .setAssociative ((Vector.replicate 4 (Vector.replicate 2 CacheLine.cleared)).set 1
        #v[⟨true, 0, 1, 1⟩, ⟨true, 1, 5, 2⟩]), accessCount := 2, hitCount := 0, log := [], fault := none },
    requests := requests }

theorem witness_fullCache_invariant (r : List Transaction) : (fullCache r).cache.Inv 32 := by
  refine ⟨Nat.zero_le _, (by decide : 8 ≤ 2 ^ 32 - 1), fun h => absurd rfl h, ?_⟩
  simp only [fullCache, CacheStore.Inv]
  unfold CacheLine.Inv CacheLine.apart CacheLine.tagsApart
  decide
theorem witness_fullSet_invariant (r : List Transaction) : (fullSet r).cache.Inv 32 := by
  refine ⟨Nat.zero_le _, (by decide : 2 ≤ 2 ^ 32 - 1), fun h => absurd rfl h, ?_⟩
  simp only [fullSet, CacheStore.Inv]
  unfold CacheLine.Inv CacheLine.apart CacheLine.tagsApart
  decide
theorem witness_StepKeepsCacheInvariant : (fullCache [.access 8]).cache.Inv 32 ∧ (fullSet [.access 9]).cache.Inv 32 ∧
    (∃ t, step (fullCache [.access 8]) = .next t) ∧ (∃ t, step (fullSet [.access 9]) = .next t) :=
  ⟨witness_fullCache_invariant _, witness_fullSet_invariant _, ⟨_, rfl⟩, ⟨_, rfl⟩⟩
theorem witness_SetMappingPolicyResult :
    (fullCache [.setMappingPolicy .direct]).requests = [.setMappingPolicy .direct] := rfl
/-- The policy already in force. -/
theorem witness_SetMappingPolicyIdempotent :
    (fullCache [.setMappingPolicy .fullyAssociative, .setMappingPolicy .fullyAssociative]).requests =
      [.setMappingPolicy .fullyAssociative, .setMappingPolicy .fullyAssociative] := rfl
theorem witness_CacheResetResult : (fullCache [.cacheReset]).requests = [.cacheReset] := rfl
theorem witness_CacheResetIdempotent : (fullSet [.cacheReset, .cacheReset]).requests = [.cacheReset, .cacheReset] := rfl
theorem witness_AccessOutOfRange : (fullCache [.access 64]).requests = [.access 64] ∧
    (fullCache [.access 64]).cache.fault = none ∧ (64 : Int) ≤ 64 ∧
    (fullCache [.access (-1)]).requests = [.access (-1)] ∧ (fullCache [.access (-1)]).cache.fault = none ∧
    (-1 : Int) < 0 := by decide
/-- A halted cache, with transactions. -/
def haltedCache (requests : List Transaction) : State :=
  { cached .direct 0xFFFFFFFF requests with
    cache := { (cached .direct 0xFFFFFFFF []).cache with fault := some (.counterOverflow 0) } }
theorem witness_CacheFaultEffect :
    ((cached .direct 0xFFFFFFFF [.access 63]).requests = [.access 63] ∧
      (cached .direct 0xFFFFFFFF [.access 63]).cache.fault = none ∧
      (cached .direct 0xFFFFFFFF [.access 63]).cache.accessCount = 2 ^ 32 - 1) ∧
    ((haltedCache [.access 63]).requests = [.access 63] ∧ (haltedCache [.access 63]).cache.fault ≠ none) ∧
    (∃ t, step (haltedCache [.cacheReset]) = .next t) ∧
    (∃ t, step (haltedCache []) = .next t) :=
  ⟨by decide, ⟨rfl, by decide⟩, ⟨_, rfl⟩, ⟨_, rfl⟩⟩
/-- The same at another CTR_W: the last count of 2-bit counters. -/
theorem witness_CacheFaultEffect_width :
    (wide (.bits 0) 2 (cached .direct 3 [.access 63])).requests = [.access 63] ∧
    (wide (.bits 0) 2 (cached .direct 3 [.access 63])).cache.fault = none ∧
    (wide (.bits 0) 2 (cached .direct 3 [.access 63])).cache.accessCount =
      2 ^ (wide (.bits 0) 2 (cached .direct 3 [.access 63])).params.ctrWidth - 1 ∧
    (wide (.bits 0) 2 (cached .direct 2 [.access 63])).acceptsAccess 63 [] :=
  ⟨rfl, rfl, rfl, ⟨rfl, by decide, by decide, by decide, by decide⟩⟩
/-- The last access that is accepted, at the last address. -/
theorem witness_AcceptedAccessCounts : (cached .direct 0xFFFFFFFE [.access 63]).acceptsAccess 63 [] ∧
    (cached .direct 0 [.access 0]).acceptsAccess 0 [] :=
  ⟨⟨rfl, by decide, by decide, by decide, by decide⟩, ⟨rfl, by decide, by decide, by decide, by decide⟩⟩
theorem witness_DirectAccessResult : (cached .direct 0xFFFFFFFE [.access 63]).acceptsAccess 63 [] ∧
    (cached .direct 0xFFFFFFFE [.access 63]).cache.store = .direct (Vector.replicate 8 CacheLine.cleared) ∧
    (((7 : Fin 8).val : Int) = 63 % 8) :=
  ⟨⟨rfl, by decide, by decide, by decide, by decide⟩, rfl, by decide⟩
/-- The hit: line 5 holds address 5 after one access to it. -/
theorem witness_DirectAccessResult_hit : ∃ t lines, step (cached .direct 0 [.access 5, .access 5]) = .next t ∧
    t.acceptsAccess 5 [] ∧ t.cache.store = .direct lines ∧ (((5 : Fin 8).val : Int) = 5 % 8) ∧
    lines[(5 : Fin 8)].valid = true ∧ (lines[(5 : Fin 8)].tag.toNat : Int) = 5 / 8 :=
  ⟨_, _, rfl, ⟨rfl, rfl, by decide, by decide, by decide⟩, rfl, by decide, by decide, by decide⟩
theorem witness_SetAssociativeAccessResult : (fullSet [.access 9]).acceptsAccess 9 [] ∧
    (fullSet [.access 5]).acceptsAccess 5 [] ∧ (∃ sets, (fullSet [.access 9]).cache.store = .setAssociative sets) ∧
    (((1 : Fin 4).val : Int) = 9 % 4) :=
  ⟨⟨rfl, by decide, by decide, by decide, by decide⟩, ⟨rfl, by decide, by decide, by decide, by decide⟩, ⟨_, rfl⟩,
    by decide⟩
theorem witness_FullyAssociativeAccessResult : (fullCache [.access 8]).acceptsAccess 8 [] ∧
    (fullCache [.access 7]).acceptsAccess 7 [] ∧
    (∃ lines, (fullCache [.access 8]).cache.store = .fullyAssociative lines ∧ ∀ j : Fin 8, lines[j].valid = true) ∧
    (∃ lines, (cached .fullyAssociative 0 []).cache.store = .fullyAssociative lines ∧
      ∃ j : Fin 8, lines[j].valid = false) :=
  ⟨⟨rfl, by decide, by decide, by decide, by decide⟩, ⟨rfl, by decide, by decide, by decide, by decide⟩,
    ⟨_, rfl, by decide⟩, ⟨_, rfl, by decide⟩⟩
theorem witness_EvictionIsLeastRecentlyUsed_full : (fullCache [.access 8]).cache.Inv 32 ∧
    (fullCache [.access 8]).acceptsAccess 8 [] ∧ ∃ t r lines lines', step (fullCache [.access 8]) = .next t ∧
    t.output = some (.accessed false r) ∧ (fullCache [.access 8]).cache.store = .fullyAssociative lines ∧
    t.cache.store = .fullyAssociative lines' ∧ ∀ j : Fin 8, lines[j].valid = true :=
  ⟨witness_fullCache_invariant _, ⟨rfl, by decide, by decide, by decide, by decide⟩, _, _, _, _, rfl, rfl, rfl, rfl,
    by decide⟩
theorem witness_EvictionIsLeastRecentlyUsed_set : (fullSet [.access 9]).cache.Inv 32 ∧
    (fullSet [.access 9]).acceptsAccess 9 [] ∧ ∃ t r sets sets', step (fullSet [.access 9]) = .next t ∧
    t.output = some (.accessed false r) ∧ (fullSet [.access 9]).cache.store = .setAssociative sets ∧
    t.cache.store = .setAssociative sets' ∧ (((1 : Fin 4).val : Int) = 9 % 4) ∧
    ∀ w : Fin 2, sets[(1 : Fin 4)][w].valid = true :=
  ⟨witness_fullSet_invariant _, ⟨rfl, by decide, by decide, by decide, by decide⟩, _, _, _, _, rfl, rfl, rfl, rfl,
    by decide, by decide⟩
theorem witness_RepeatedAccessHits :
    (cached .fullyAssociative 0xFFFFFFFD [.access 63, .access 63]).acceptsAccess 63 [.access 63] ∧
    (cached .fullyAssociative 0xFFFFFFFD []).cache.accessCount + 2 < 2 ^ 32 :=
  ⟨⟨rfl, by decide, by decide, by decide, by decide⟩, by decide⟩
theorem witness_DirectConflictEvicts :
    (cached .direct 0xFFFFFFFC [.access 5, .access 13, .access 5]).acceptsAccess 5 [.access 13, .access 5] ∧
    (cached .direct 0xFFFFFFFC []).cache.accessCount + 3 < 2 ^ 32 ∧
    (∃ lines, (cached .direct 0xFFFFFFFC []).cache.store = .direct lines) ∧ (5 : Int) ≠ 13 ∧ (5 : Int) % 8 = 13 % 8 :=
  ⟨⟨rfl, by decide, by decide, by decide, by decide⟩, by decide, ⟨_, rfl⟩, by decide, by decide⟩
/-- A hit of every shape but direct, and a miss of each: LRU in a full set and a full cache, DIRECT in a cleared line. -/
theorem witness_AccessRecordFields :
    ((fullCache [.access 7]).cache.Inv 32 ∧ (fullCache [.access 7]).acceptsAccess 7 [] ∧
      ∃ t r, step (fullCache [.access 7]) = .next t ∧ t.output = some (.accessed true (.access r))) ∧
    ((fullCache [.access 8]).acceptsAccess 8 [] ∧
      ∃ t r, step (fullCache [.access 8]) = .next t ∧ t.output = some (.accessed false (.access r))) ∧
    ((fullSet [.access 9]).acceptsAccess 9 [] ∧
      ∃ t r, step (fullSet [.access 9]) = .next t ∧ t.output = some (.accessed false (.access r))) ∧
    ((cached .direct 0 [.access 63]).acceptsAccess 63 [] ∧ (cached .direct 0 []).cache.store.policy = .direct ∧
      ∃ t r, step (cached .direct 0 [.access 63]) = .next t ∧ t.output = some (.accessed false (.access r))) :=
  ⟨⟨witness_fullCache_invariant _, ⟨rfl, by decide, by decide, by decide, by decide⟩, _, _, rfl, rfl⟩,
    ⟨⟨rfl, by decide, by decide, by decide, by decide⟩, _, _, rfl, rfl⟩,
    ⟨⟨rfl, by decide, by decide, by decide, by decide⟩, _, _, rfl, rfl⟩,
    ⟨⟨rfl, by decide, by decide, by decide, by decide⟩, rfl, _, _, rfl, rfl⟩⟩

/-! ### The step transaction by request, and the source text -/

/-- A request before a cache access, and a FETCH just past the last cell. -/
theorem witness_StepRequestIsStep :
    (∃ t, step { at_ 2 1 0x200F 15 7 [] with requests := [] } = .next t) ∧
    ({ at_ 2 1 0x200F 15 7 [] with requests := [.step, .access 5] } : State).requests = .step :: [.access 5] ∧
    ∃ (s : State) (r : Fault), s.requests = [.step] ∧ step { s with requests := [] } = .fault r :=
  ⟨⟨_, rfl⟩, rfl,
    { at_ 0 16 0 0 0 [] with
      cpu := { (at_ 0 16 0 0 0 []).cpu with prog := fillerRecords 0 17 }, requests := [.step] }, _, rfl, rfl⟩
theorem witness_SourceTextSplitting : '\n' ∉ ['A', ' ', '1', '\r'] ∧ '\n' ∉ ([] : List Char) ∧
    (∀ c ∈ [' ', '\t', '\r'], c = ' ' ∨ c = '\t' ∨ c = '\r') ∧ ['A', '1'] ≠ [] ∧
    (∀ c ∈ ['A', '1'], c ≠ ' ' ∧ c ≠ '\t' ∧ c ≠ '\r') := by simp
/-- The characters beside the letters and beside the digits. -/
theorem witness_TokenMeaning : (∀ c ∈ ['`', 'a', 'z', Char.ofNat 123, Char.ofNat 127], c.toNat < 128) ∧
    (∃ c ∈ ['1', '/'], c.toNat < 48 ∨ 57 < c.toNat) ∧ (∃ c ∈ ['1', ':'], c.toNat < 48 ∨ 57 < c.toNat) ∧ 9 < 10 ∧
    decimalValue "00409".toList = some 409 :=
  ⟨by simp, ⟨'/', by simp, by decide⟩, ⟨':', by simp, by decide⟩, by decide, by decide⟩
/-- The outcome of the one-token lines of a text, none refused. -/
def lineResults (n : Nat) : List (Option Assembled) := (List.range n).map fun k => some (⟨['X'], none, k⟩, 0)

/-- A text of such lines and their outcomes meet the hypotheses of the second clause. -/
theorem witness_AssembledTextResult_lines {src : List Char} {n : Nat} (h : sourceLines src = List.replicate n ['X']) :
    (lineResults n).length = (sourceLines src).length ∧
    ∀ k text, (sourceLines src)[k]? = some text → ∃ o, (lineResults n)[k]? = some o ∧ assembleLine k text = .ok o := by
  refine ⟨by simp [lineResults, h], fun k text hk => ⟨some (⟨['X'], none, k⟩, 0), ?_⟩⟩
  rw [h, List.getElem?_replicate] at hk
  split at hk
  · rename_i hlt
    cases hk
    exact ⟨by simp [lineResults, hlt], rfl⟩
  · cases hk
/-- The refused line is the second of three, the first blank; sixteen lines are accepted, and seventeen too many. -/
theorem witness_AssembledTextResult :
    ((sourceLines " \nADD\nADD x".toList)[1]? = some "ADD".toList ∧ assembleLine 1 "ADD".toList = .error .missingOperand ∧
      (sourceLines " \nADD\nADD x".toList)[0]? = some " ".toList ∧ assembleLine 0 " ".toList = .ok none) ∧
    sourceLines (seventeenLines.take 31) = List.replicate 16 ['X'] ∧ ((lineResults 16).filterMap id).length ≤ 16 ∧
    sourceLines (seventeenLines.take 33) = List.replicate 17 ['X'] ∧ 16 < ((lineResults 17).filterMap id).length :=
  ⟨by decide, by decide, by decide, by decide, by decide⟩

/-! ### The widths -/

theorem witness_loadedMachine_wholeInvariant : (loadedMachine true).Inv := by
  refine ⟨witness_loadedMachine_invariant true, Nat.zero_le _, Nat.zero_le _, fun h => absurd rfl h, ?_⟩
  simp only [loadedMachine, under, State.reset, State.powerOn, Cache.powerOn, Params.taken, CacheStore.cleared,
    CacheStore.Inv]
  unfold CacheLine.Inv CacheLine.apart
  decide
theorem witness_ValuesKeepTheirWidths : (loadedMachine true).Inv ∧ (∃ t, step (loadedMachine true) = .next t) ∧
    (loadedMachine true).params.wordWidth = .bits 0 ∧ (loadedMachine true).params.addOverflow ≠ .unbounded ∧
    (∃ p l, (loadedMachine true).cache.store.lineAt p = some l) :=
  ⟨witness_loadedMachine_wholeInvariant, ⟨_, rfl⟩, rfl, by decide, .line 0, _, rfl⟩

end Sys2Proof.Machine.Tests
end

section
/-! PROOF. What each transaction leaves alone, and O31, O33, O34: a step consumes one request and changes no parameter,
and the transactions of one engine neither write nor read the record of the other (00_scope.md R2). -/

namespace Sys2Proof.Machine

/-! ### What a transaction leaves alone -/

/-- load_program writes the CPU record and the output alone. -/
theorem loadProgram_frame (src : List Char) (s : State) : (loadProgram src s).cache = s.cache ∧
    (loadProgram src s).params = s.params ∧ (loadProgram src s).requests = s.requests := by
  rcases loadProgram_cases src s with ⟨r, -, h⟩ | ⟨items, -, h⟩ <;> rw [h] <;> exact ⟨rfl, rfl, rfl⟩

/-- A transaction, once off the list of requests, changes no parameter and no request. -/
theorem perform_frame {tr : Transaction} {s t : State} (h : perform tr s = .next t) :
    t.params = s.params ∧ t.requests = s.requests := by
  cases tr with
  | loadProgram src =>
    cases h
    obtain ⟨-, hparams, hrequests⟩ := loadProgram_frame src s
    exact ⟨hparams, hrequests⟩
  | step =>
    obtain ⟨-, -, hparams, hrequests⟩ := cpuStep_next h
    exact ⟨hparams, hrequests⟩
  | access a =>
    cases h
    obtain ⟨-, hparams, hrequests⟩ := access_frame a s
    exact ⟨hparams, hrequests⟩
  | cpuReset | setMappingPolicy p | cacheReset => cases h; exact ⟨rfl, rfl⟩

theorem step_frame {s t : State} (h : step s = .next t) : t.params = s.params ∧ t.requests = s.requests.tail := by
  cases hr : s.requests with
  | nil =>
    rw [step_of_idle hr] at h
    obtain ⟨-, -, hparams, hrequests⟩ := cpuStep_next h
    exact ⟨hparams, hrequests.trans hr⟩
  | cons tr rest =>
    rw [step_of_request hr] at h
    exact perform_frame h

/-! ### CPU transactions under another cache -/

/-- A step() does the same to the CPU Engine whatever the cache holds, and keeps it. -/
theorem cpuStep_withCache {s t : State} (h : cpuStep s = .next t) (c : Cache) :
    t.cache = s.cache ∧ cpuStep (s.withCache c) = .next (t.withCache c) := by
  obtain ⟨-, hcache, hparams, hrequests⟩ := cpuStep_next h
  refine ⟨hcache, ?_⟩
  rw [(cpuStep_reads (s := s) (u := s.withCache c) rfl rfl).1 t h]
  simp only [State.withCache, hparams, hrequests]

theorem loadProgram_withCache (src : List Char) (s : State) (c : Cache) :
    loadProgram src (s.withCache c) = (loadProgram src s).withCache c := by
  unfold loadProgram
  cases assemble src <;> rfl

/-! ### Cache transactions under another CPU record -/

theorem access_withCpu (a : Int) (s : State) (c : Cpu) : access a (s.withCpu c) = (access a s).withCpu c := by
  rcases access_cases a s with ⟨hf, h⟩ | ⟨hf, ha, h⟩ | ⟨hf, ha, hc, h⟩ | ⟨hf, ha, hc, h⟩ <;> rw [h]
  · exact if_pos hf
  · exact (if_neg (not_not.2 hf)).trans (if_pos ha)
  · exact (if_neg (not_not.2 hf)).trans ((if_neg (by simp [ha])).trans (if_pos hc))
  · exact (if_neg (not_not.2 hf)).trans ((if_neg (by simp [ha])).trans (if_neg hc))

/-- The next transaction is the Cache Engine's exactly where one of its three requests is the oldest pending. -/
theorem State.cpuTurn_eq_false {s : State} : s.cpuTurn = false ↔
    ∃ rest, (∃ p, s.requests = .setMappingPolicy p :: rest) ∨ (∃ a, s.requests = .access a :: rest) ∨
      s.requests = .cacheReset :: rest := by
  unfold State.cpuTurn
  split <;> simp_all

end Sys2Proof.Machine

open Sys2Proof Sys2Proof.Machine

/-- Settles O31: neither a transaction nor an idle step() touches the parameters or the later requests. -/
theorem stepConsumesOneRequest : Obligations.StepConsumesOneRequest := fun _ _ h => step_frame h

/-- Settles O33: the three CPU transactions commute with exchanging the cache. -/
theorem cpuIndependentOfCache : Obligations.CpuIndependentOfCache := by
  intro s t c hturn h
  change t.cache = s.cache ∧ step (s.withCache c) = .next (t.withCache c)
  cases hr : s.requests with
  | nil =>
    have hr' : (s.withCache c).requests = [] := hr
    rw [step_of_idle hr] at h
    rw [step_of_idle hr']
    exact cpuStep_withCache h c
  | cons tr rest =>
    have hr' : (s.withCache c).requests = tr :: rest := hr
    rw [step_of_request hr] at h
    rw [step_of_request hr']
    cases tr with
    | loadProgram src =>
      cases h
      exact ⟨(loadProgram_frame src _).1, congrArg Host.Outcome.next (loadProgram_withCache src (s.withRequests rest) c)⟩
    | step => exact cpuStep_withCache (s := s.withRequests rest) h c
    | cpuReset => cases h; exact ⟨rfl, rfl⟩
    | setMappingPolicy p | access a | cacheReset => simp [State.cpuTurn, hr] at hturn

/-- Settles O34: the three cache transactions commute with exchanging the CPU record. -/
theorem cacheIndependentOfCpu : Obligations.CacheIndependentOfCpu := by
  intro s t c hturn h
  change t.cpu = s.cpu ∧ step (s.withCpu c) = .next (t.withCpu c)
  obtain ⟨rest, ⟨p, hr⟩ | ⟨a, hr⟩ | hr⟩ := State.cpuTurn_eq_false.1 hturn <;>
    rw [step_of_request hr] at h <;> rw [step_of_request (s := s.withCpu c) hr] <;> cases h
  · exact ⟨rfl, rfl⟩
  · exact ⟨(access_frame a _).1, congrArg Host.Outcome.next (access_withCpu a (s.withRequests rest) c)⟩
  · exact ⟨rfl, rfl⟩
end

section
/-! PROOF. O60: every step keeps the registers and cells within WORD_WIDTH and the counters within CTR_W (00_scope.md R8;
10_state.md R20, R23, R33). -/

namespace Sys2Proof.Machine

/-! ### Words of the CPU Engine -/

/-- Under a bounded width, with unbounded sums not selected, an admitted word is below 2^WORD_WIDTH. -/
theorem lt_of_admitsWord {p : Params} {n v : Nat} (hw : p.wordWidth = .bits n) (ho : p.addOverflow ≠ .unbounded)
    (h : admitsWord p v = true) : v < 2 ^ (16 + n) := by
  simpa [admitsWord, hw, ho] using h

/-- The 12-bit address field, which DECODE puts in MAR, fits every width. -/
theorem admitsWord_addrField (p : Params) (w : InstrWord) : admitsWord p (addrField w).toNat = true :=
  admitsWord_of_lt ((addrField w).isLt.trans (by decide)) p

theorem placeFrom_admitted {p : Params} {ws : List Nat} (hws : ∀ w ∈ ws, admitsWord p w = true) (first : Nat)
    {m : Memory} (hm : ∀ x ∈ m, admitsWord p x.2 = true) : ∀ x ∈ placeFrom first ws m, admitsWord p x.2 = true := by
  induction ws generalizing first m with
  | nil => exact hm
  | cons w ws ih =>
    obtain ⟨hw, hws⟩ := List.forall_mem_cons.1 hws
    exact ih hws (first + 1) (Memory.put_admitted hm first hw)

/-- load_program places instruction words and seeds, all of 16 bits at most. -/
theorem loadedMemory_admitted {p : Params} (clears : Bool) (items : List Assembled) {m : Memory}
    (hm : ∀ x ∈ m, admitsWord p x.2 = true) :
    ∀ x ∈ loadedMemory clears (items.map assembledWord) m, admitsWord p x.2 = true := by
  have hwords : ∀ w ∈ items.map assembledWord, admitsWord p w = true := by
    intro w hw
    obtain ⟨x, -, rfl⟩ := List.mem_map.1 hw
    exact admitsWord_of_lt x.2.isLt p
  have hkept : ∀ x ∈ (if clears then [] else m), admitsWord p x.2 = true := by
    cases clears
    · exact hm
    · exact fun _ h => nomatch h
  have hplaced := placeFrom_admitted hwords 0 hkept
  have hseed : ∀ v, v < 2 ^ 16 → admitsWord p v = true := fun v hv => admitsWord_of_lt hv p
  exact Memory.put_admitted (Memory.put_admitted hplaced 10 (hseed 5 (by decide))) 11 (hseed 3 (by decide))

theorem Cpu.cleared_wordsFit (p : Params) : Cpu.cleared.wordsFit p = true := by
  have h0 : admitsWord p 0 = true := admitsWord_of_lt (by decide) p
  exact Cpu.wordsFit_iff.2 ⟨h0, h0, h0, h0, h0, fun _ h => nomatch h⟩

theorem Cpu.launched_wordsFit {p : Params} (prog : List ProgRecord) {m : Memory}
    (hm : ∀ x ∈ m, admitsWord p x.2 = true) : (Cpu.launched prog m).wordsFit p = true := by
  have h0 : admitsWord p 0 = true := admitsWord_of_lt (by decide) p
  exact Cpu.wordsFit_iff.2 ⟨h0, h0, h0, h0, h0, hm⟩

/-- EXECUTE writes a cell, AC or what ADD admits. -/
theorem Cpu.executesTo_wordsFit {p : Params} {c c' : Cpu} (h : c.executesTo p c') (hc : c.wordsFit p = true) :
    c'.wordsFit p = true := by
  obtain ⟨hac, hpc, hir, hmar, hmbr, hmem⟩ := Cpu.wordsFit_iff.1 hc
  have hcell := Memory.cell_admitted hmem c.mar
  rcases h with rfl | ⟨-, r, hr, rfl⟩ | ⟨-, rfl⟩
  · exact hc
  · have hfit : admitsWord p r = true := by
      rcases hr with rfl | hr
      · exact hcell
      · exact admitsWord_of_addResult hr
    exact Cpu.wordsFit_iff.2 ⟨hfit, hpc, hir, hmar, hcell, hmem⟩
  · exact Cpu.wordsFit_iff.2 ⟨hac, hpc, hir, hmar, hac, Memory.put_admitted hmem c.mar hac⟩

/-- No micro-step, stop or fault leaves a word too wide. -/
theorem Cpu.StepsTo.wordsFit {s : State} {c : Cpu} (h : Cpu.StepsTo s c) (hs : s.cpu.wordsFit s.params = true) :
    c.wordsFit s.params = true := by
  obtain ⟨hac, hpc, hir, hmar, hmbr, hmem⟩ := Cpu.wordsFit_iff.1 hs
  cases h with
  | stop | raise => exact hs
  | fetch _ _ hlt =>
    have hword := Memory.cell_admitted hmem s.cpu.pc
    have hnext : admitsWord s.params (s.cpu.pc + 1) = true := admitsWord_of_lt (by unfold memCells at hlt; omega) _
    exact Cpu.wordsFit_iff.2 ⟨hac, hnext, hword, hpc, hword, hmem⟩
  | decode => exact Cpu.wordsFit_iff.2 ⟨hac, hpc, hir, admitsWord_addrField _ _, hmbr, hmem⟩
  | execute c' _ _ hexec _ => exact Cpu.executesTo_wordsFit (c' := c') hexec hs

theorem loadProgram_wordsFit (src : List Char) {s : State} (hs : s.cpu.wordsFit s.params = true) :
    (loadProgram src s).cpu.wordsFit s.params = true := by
  obtain ⟨-, -, -, -, -, hmem⟩ := Cpu.wordsFit_iff.1 hs
  rcases loadProgram_cases src s with ⟨r, -, h⟩ | ⟨items, -, h⟩ <;> rw [h]
  · exact hs
  · exact Cpu.launched_wordsFit _ (loadedMemory_admitted _ items hmem)

/-- Every step keeps the registers and cells within the width in force. -/
theorem step_wordsFit {s t : State} (h : step s = .next t) (hs : s.cpu.wordsFit s.params = true) :
    t.cpu.wordsFit s.params = true := by
  rcases step_next h with h | ⟨src, rfl⟩ | rfl | ⟨p, rfl⟩ | ⟨a, rfl⟩ | rfl
  · exact (cpuStep_next h).1.wordsFit hs
  · exact loadProgram_wordsFit (s := s.withRequests s.requests.tail) src hs
  · exact Cpu.cleared_wordsFit _
  · exact hs
  · rw [(access_frame a _).1]; exact hs
  · exact hs

/-! ### Counters of the Cache Engine -/

/-- hit_count and every access_time are at most access_count, which is at most 2^CTR_W − 1 (10_state.md R33, R37): the
part of `Cache.Inv` that bounds the counters. -/
def Cache.countersFit (ctrWidth : Nat) (c : Cache) : Prop :=
  c.hitCount ≤ c.accessCount ∧ c.accessCount ≤ lastCount ctrWidth ∧
  ∀ p l, c.store.lineAt p = some l → l.accessTime ≤ c.accessCount

theorem CacheLine.Inv.accessTime_le {count spelled : Nat} {l : CacheLine} (h : l.Inv count spelled) :
    l.accessTime ≤ count := by
  unfold CacheLine.Inv at h
  split at h
  · exact h.2.1
  · rw [h]; exact Nat.zero_le _

theorem CacheStore.Inv.accessTime_le {count : Nat} {st : CacheStore} (h : st.Inv count) {p : Position} {l : CacheLine}
    (hl : st.lineAt p = some l) : l.accessTime ≤ count := by
  cases st with
  | direct lines | fullyAssociative lines =>
    cases p with
    | line i => cases hl; exact (h.1 i).accessTime_le
    | way k w => cases hl
  | setAssociative sets =>
    cases p with
    | line i => cases hl
    | way k w => cases hl; exact (h.1 k w).accessTime_le

theorem Cache.Inv.countersFit {ctrWidth : Nat} {c : Cache} (h : c.Inv ctrWidth) : c.countersFit ctrWidth := by
  obtain ⟨hhits, hcount, -, hstore⟩ := h
  exact ⟨hhits, hcount, fun _ _ hl => hstore.accessTime_le hl⟩

/-- Every line of a cleared structure is cleared (10_state.md R43). -/
theorem CacheStore.lineAt_cleared {policy : Policy} {p : Position} {l : CacheLine}
    (h : (CacheStore.cleared policy).lineAt p = some l) : l = .cleared := by
  cases policy with
  | direct | fullyAssociative =>
    cases p with
    | line i => cases h; exact Vector.getElem_replicate i.isLt
    | way k w => cases h
  | setAssociative =>
    cases p with
    | line i => cases h
    | way k w => cases h; simp

/-- A policy newly set starts every counter at 0. -/
theorem Cache.configured_countersFit (ctrWidth : Nat) (c : Cache) (p : Policy) :
    (c.configured p).countersFit ctrWidth :=
  ⟨le_rfl, Nat.zero_le _, fun _ _ hl => by rw [CacheStore.lineAt_cleared hl]; exact le_rfl⟩

/-- An access marks one line with the count it is given and leaves the others alone, under every policy
(45_cache_engine.md R224). -/
theorem accessStore_lineAt {st : CacheStore} {a : CacheAddress} {now : Nat} {p : Position} {l : CacheLine}
    (h : (accessStore st a now).store.lineAt p = some l) : l.accessTime = now ∨ st.lineAt p = some l := by
  cases st with
  | direct lines =>
    rw [accessStore, accessDirect_store] at h
    cases p with
    | way k w => cases h
    | line j =>
      rw [CacheStore.lineAt_direct, getElem_set_fin] at h
      cases h
      split_ifs <;> simp
  | setAssociative sets =>
    rcases accessSet_cases sets a now with ⟨w, -, -, hs⟩ | ⟨-, -, hs⟩ <;> rw [accessStore, hs] at h <;> cases p with
    | line j => cases h
    | way k' w' =>
      rw [CacheStore.lineAt_setAssociative, getElem_set_fin] at h
      split_ifs at h with hk
      · subst hk
        rw [getElem_set_fin] at h
        cases h
        split_ifs <;> simp
      · exact .inr h
  | fullyAssociative lines =>
    rcases accessFull_cases lines a now with ⟨i, -, -, hs⟩ | ⟨-, -, hs⟩ <;> rw [accessStore, hs] at h <;> cases p with
    | way k w => cases h
    | line j =>
      rw [CacheStore.lineAt_fullyAssociative, getElem_set_fin] at h
      cases h
      split_ifs <;> simp

/-- An accepted access finds a count below the last one, so one more still fits. -/
theorem acceptAccess_countersFit (a : Int) {s : State} (hs : s.cache.countersFit s.params.ctrWidth)
    (hlast : s.cache.accessCount ≠ lastCount s.params.ctrWidth) :
    (acceptAccess a s).cache.countersFit s.params.ctrWidth := by
  obtain ⟨hhits, hcount, htimes⟩ := hs
  refine ⟨?_, ?_, fun p l hl => ?_⟩
  · rw [acceptAccess_hitCount, acceptAccess_accessCount]
    split <;> omega
  · rw [acceptAccess_accessCount]; omega
  · rw [acceptAccess_accessCount]
    rcases accessStore_lineAt hl with hnow | hold
    · exact hnow.le
    · exact (htimes p l hold).trans (Nat.le_succ _)

/-- A refused, erroneous or faulting access counts nothing (45_cache_engine.md R211; 60_exceptions.md R263, R266). -/
theorem access_countersFit (a : Int) {s : State} (hs : s.cache.countersFit s.params.ctrWidth) :
    (access a s).cache.countersFit s.params.ctrWidth := by
  rcases access_cases a s with ⟨-, h⟩ | ⟨-, -, h⟩ | ⟨-, -, -, h⟩ | ⟨-, -, hlast, h⟩ <;> rw [h]
  · exact hs
  · exact hs
  · exact hs
  · exact acceptAccess_countersFit a hs hlast

/-- Every step keeps the counters within CTR_W. -/
theorem step_countersFit {s t : State} (h : step s = .next t) (hs : s.cache.countersFit s.params.ctrWidth) :
    t.cache.countersFit s.params.ctrWidth := by
  rcases step_next h with h | ⟨src, rfl⟩ | rfl | ⟨p, rfl⟩ | ⟨a, rfl⟩ | rfl
  · rw [(cpuStep_next h).2.1]; exact hs
  · rw [(loadProgram_frame src _).1]; exact hs
  · exact hs
  · exact Cache.configured_countersFit _ _ p
  · exact access_countersFit a hs
  · exact Cache.configured_countersFit _ s.cache s.cache.store.policy

end Sys2Proof.Machine

open Sys2Proof Sys2Proof.Machine

/-- Settles O60: the two width invariants hold before the step by `State.Inv`, every step keeps them, and the bounds are
read off after it. -/
theorem valuesKeepTheirWidths : Obligations.ValuesKeepTheirWidths := by
  intro s t ⟨hcpu, hcache⟩ h
  obtain ⟨hac, hpc, hir, hmar, hmbr, hmem⟩ := Cpu.wordsFit_iff.1 (step_wordsFit h hcpu.1)
  obtain ⟨hhits, hcount, htimes⟩ := step_countersFit h hcache.countersFit
  refine ⟨fun n hw ho => ?_, hcount, hhits.trans hcount, fun p l hl => (htimes p l hl).trans hcount⟩
  have hlt : ∀ {v}, admitsWord s.params v = true → v < 2 ^ (16 + n) := lt_of_admitsWord hw ho
  exact ⟨hlt hac, hlt hpc, hlt hir, hlt hmar, hlt hmbr, fun a => hlt (Memory.cell_admitted hmem a)⟩
end

section
/-! PROOF. O28: every step keeps the Cache Engine's invariant. The lines of the three policies are one notion, a family
of lines cut into eligible sets (10_state.md R37); an access replaces one line of the family (45_cache_engine.md R224). -/

namespace Sys2Proof.Machine

/-! ### Families of lines -/

/-- A family of lines at positions `ι` when `count` accesses have been counted: each line is filled from the address
`spells` gives its tag and position, no two valid lines share an access_time, and no two of one eligible set share a
tag. -/
structure LineFamily.Inv {ι σ : Type} (count : Nat) (spells : ι → CacheAddress → Nat) (eligible : ι → σ)
    (f : ι → CacheLine) : Prop where
  line : ∀ i, (f i).Inv count (spells i (f i).tag)
  apart : ∀ i j, i ≠ j → (f i).apart (f j)
  tagsApart : ∀ i j, i ≠ j → eligible i = eligible j → (f i).tagsApart (f j)

/-- The address a tag and a line spell under direct mapping (45_cache_engine.md R213). -/
def lineSpells (i : Fin 8) (tag : CacheAddress) : Nat := tag.toNat * 8 + i

/-- The address a tag and a position spell under set-associative mapping (45_cache_engine.md R216). -/
def waySpells (p : Fin 4 × Fin 2) (tag : CacheAddress) : Nat := tag.toNat * 4 + p.1

/-- The ways of a set-associative cache as one family. -/
def wayAt (sets : Vector (Vector CacheLine 2) 4) (p : Fin 4 × Fin 2) : CacheLine := sets[p.1][p.2]

/-- Direct mapping: every line is an eligible set of its own (45_cache_engine.md R213). -/
theorem CacheStore.inv_direct {count : Nat} {lines : Vector CacheLine 8} : (CacheStore.direct lines).Inv count ↔
    LineFamily.Inv count lineSpells id (fun i : Fin 8 => lines[i]) :=
  ⟨fun ⟨hline, hapart⟩ => ⟨hline, hapart, fun _ _ hne heq => absurd heq hne⟩, fun h => ⟨h.line, h.apart⟩⟩

/-- Set-associative mapping: the eligible sets are the sets (45_cache_engine.md R216). -/
theorem CacheStore.inv_setAssociative {count : Nat} {sets : Vector (Vector CacheLine 2) 4} :
    (CacheStore.setAssociative sets).Inv count ↔ LineFamily.Inv count waySpells Prod.fst (wayAt sets) := by
  constructor
  · rintro ⟨hline, hapart, htags⟩
    refine ⟨fun p => hline p.1 p.2, fun p q hne => hapart p.1 q.1 p.2 q.2 hne, fun ⟨k, w⟩ ⟨k', w'⟩ hne hk => ?_⟩
    obtain rfl : k = k' := hk
    exact htags k w w' fun hw => hne (by rw [hw])
  · intro h
    exact ⟨fun k w => h.line (k, w), fun k k' w w' hne => h.apart (k, w) (k', w') hne,
      fun k w w' hne => h.tagsApart (k, w) (k, w') (fun he => hne (Prod.mk.inj he).2) rfl⟩

/-- Fully-associative mapping: all lines are one eligible set (45_cache_engine.md R220). -/
theorem CacheStore.inv_fullyAssociative {count : Nat} {lines : Vector CacheLine 8} :
    (CacheStore.fullyAssociative lines).Inv count ↔
    LineFamily.Inv count (fun _ tag => tag.toNat) (fun _ => ()) (fun i : Fin 8 => lines[i]) :=
  ⟨fun ⟨hline, hapart, htags⟩ => ⟨hline, hapart, fun i j hne _ => htags i j hne⟩,
    fun h => ⟨h.line, h.apart, fun i j hne => h.tagsApart i j hne rfl⟩⟩

/-- Replacing one line of a vector replaces it in the family. -/
theorem getElem_set_eq_update {n : Nat} (lines : Vector CacheLine n) (i : Fin n) (x : CacheLine) :
    (fun j : Fin n => (lines.set i x)[j]) = Function.update (fun j : Fin n => lines[j]) i x := by
  funext j
  rw [getElem_set_fin, Function.update_apply]
  exact if_congr eq_comm rfl rfl

/-- Replacing one way of one set replaces it in the family. -/
theorem wayAt_set_eq_update (sets : Vector (Vector CacheLine 2) 4) (k : Fin 4) (w : Fin 2) (x : CacheLine) :
    wayAt (sets.set k (sets[k].set w x)) = Function.update (wayAt sets) (k, w) x := by
  funext ⟨k', w'⟩
  rw [wayAt, getElem_set_fin, Function.update_apply]
  by_cases hk : k = k'
  · subst hk
    rw [if_pos rfl, getElem_set_fin]
    by_cases hw : w = w'
    · simp [hw]
    · simp [hw, Ne.symm hw, wayAt]
  · simp [hk, Ne.symm hk, wayAt]

/-! ### One line replaced at a new access -/

theorem CacheLine.Inv.of_valid {count spelled : Nat} {l : CacheLine} (h : l.Inv count spelled) (hv : l.valid = true) :
    1 ≤ l.accessTime ∧ l.accessTime ≤ count ∧ l.data.toNat = spelled := by
  simpa only [CacheLine.Inv, hv, if_true] using h

theorem CacheLine.inv_of_valid {count spelled : Nat} {l : CacheLine} (hv : l.valid = true) (htime : 1 ≤ l.accessTime)
    (hcount : l.accessTime ≤ count) (hdata : l.data.toNat = spelled) : l.Inv count spelled := by
  simpa only [CacheLine.Inv, hv, if_true] using ⟨htime, hcount, hdata⟩

theorem CacheLine.cleared_inv (count spelled : Nat) : CacheLine.cleared.Inv count spelled := rfl

/-- A line left alone by an access keeps its invariant when the access is counted. -/
theorem CacheLine.Inv.succ {count spelled : Nat} {l : CacheLine} (h : l.Inv count spelled) :
    l.Inv (count + 1) spelled := by
  cases hv : l.valid with
  | true =>
    obtain ⟨htime, hcount, hdata⟩ := h.of_valid hv
    exact CacheLine.inv_of_valid hv htime (Nat.le_succ_of_le hcount) hdata
  | false => simpa only [CacheLine.Inv, hv, Bool.false_eq_true, if_false] using h

section Family

variable {ι σ : Type} {count : Nat} {spells : ι → CacheAddress → Nat} {eligible : ι → σ} {f : ι → CacheLine}

/-- A family of cleared lines (10_state.md R43). -/
theorem LineFamily.inv_of_cleared (h : ∀ i, f i = .cleared) (count : Nat) : LineFamily.Inv count spells eligible f where
  line i := by rw [h i]; exact CacheLine.cleared_inv _ _
  apart i _ _ hi := by rw [h i] at hi; cases hi
  tagsApart i _ _ _ hi := by rw [h i] at hi; cases hi

variable [DecidableEq ι]

/-- A new access_time is larger than every one given before, so a valid line marked with it differs from all others in
access_time; its tag has to differ within its eligible set. -/
theorem LineFamily.Inv.update (h : LineFamily.Inv count spells eligible f) {i : ι} {x : CacheLine}
    (hv : x.valid = true) (htime : x.accessTime = count + 1) (hdata : x.data.toNat = spells i x.tag)
    (htag : ∀ j, j ≠ i → eligible j = eligible i → (f j).valid = true → (f j).tag ≠ x.tag) :
    LineFamily.Inv (count + 1) spells eligible (Function.update f i x) := by
  have hold : ∀ j, (f j).accessTime ≠ x.accessTime := fun j => by
    have := (h.line j).accessTime_le; omega
  refine ⟨fun j => ?_, fun j k hne => ?_, fun j k hne hset => ?_⟩
  · by_cases hj : j = i
    · subst hj
      rw [Function.update_self]
      exact CacheLine.inv_of_valid hv (by omega) htime.le hdata
    · rw [Function.update_of_ne hj]
      exact (h.line j).succ
  · by_cases hj : j = i
    · subst hj
      rw [Function.update_self, Function.update_of_ne hne.symm]
      exact fun _ _ => (hold k).symm
    · rw [Function.update_of_ne hj]
      by_cases hk : k = i
      · subst hk
        rw [Function.update_self]
        exact fun _ _ => hold j
      · rw [Function.update_of_ne hk]
        exact h.apart j k hne
  · by_cases hj : j = i
    · subst hj
      rw [Function.update_self, Function.update_of_ne hne.symm]
      exact fun _ hvk => (htag k hne.symm hset.symm hvk).symm
    · rw [Function.update_of_ne hj]
      by_cases hk : k = i
      · subst hk
        rw [Function.update_self]
        exact fun hvj _ => htag j hne hset hvj
      · rw [Function.update_of_ne hk]
        exact h.tagsApart j k hne hset

/-- A hit refreshes the line that holds the tag (45_cache_engine.md R212). -/
theorem LineFamily.Inv.touch (h : LineFamily.Inv count spells eligible f) {i : ι} (hv : (f i).valid = true) :
    LineFamily.Inv (count + 1) spells eligible (Function.update f i ((f i).touched (count + 1))) := by
  obtain ⟨-, -, hdata⟩ := (h.line i).of_valid hv
  exact h.update hv rfl hdata fun j hne hset hvj => h.tagsApart j i hne hset hvj hv

/-- A miss fills a line with a tag that no line of the eligible set holds (45_cache_engine.md R215, R219, R223). -/
theorem LineFamily.Inv.fill (h : LineFamily.Inv count spells eligible f) {i : ι} {tag a : CacheAddress}
    (hspells : a.toNat = spells i tag)
    (hmiss : ∀ j, j ≠ i → eligible j = eligible i → ¬ ((f j).valid = true ∧ (f j).tag = tag)) :
    LineFamily.Inv (count + 1) spells eligible (Function.update f i (.filled tag a (count + 1))) :=
  h.update rfl rfl hspells fun j hne hset hvj htag => hmiss j hne hset ⟨hvj, htag⟩

end Family

/-! ### The lines under each policy -/

/-- The tag and the line of a direct-mapped address spell it (45_cache_engine.md R213). -/
theorem directTag_spells (a : CacheAddress) : a.toNat = lineSpells (directIndex a) (directTag a) := by
  rw [lineSpells, directTag_toNat, directIndex_val]; omega

/-- The tag and the set of a set-associative address spell it (45_cache_engine.md R216). -/
theorem setTag_spells (a : CacheAddress) (w : Fin 2) : a.toNat = waySpells (setIndex a, w) (setTag a) := by
  rw [waySpells, setTag_toNat, setIndex_val]; omega

theorem CacheStore.cleared_inv (p : Policy) (count : Nat) : (CacheStore.cleared p).Inv count := by
  cases p with
  | direct => exact CacheStore.inv_direct.2 (LineFamily.inv_of_cleared (fun i => by simp) count)
  | setAssociative => exact CacheStore.inv_setAssociative.2 (LineFamily.inv_of_cleared (fun i => by simp [wayAt]) count)
  | fullyAssociative => exact CacheStore.inv_fullyAssociative.2 (LineFamily.inv_of_cleared (fun i => by simp) count)

theorem accessDirect_inv {lines : Vector CacheLine 8} {count : Nat} (h : (CacheStore.direct lines).Inv count)
    (a : CacheAddress) : (accessDirect lines a (count + 1)).store.Inv (count + 1) := by
  rw [CacheStore.inv_direct] at h
  rw [accessDirect_store, CacheStore.inv_direct, getElem_set_eq_update]
  split_ifs with hholds
  · exact h.touch (CacheLine.holds_eq_true.1 hholds).1
  · exact h.fill (directTag_spells a) fun j hne heq => absurd heq hne

theorem accessSet_inv {sets : Vector (Vector CacheLine 2) 4} {count : Nat}
    (h : (CacheStore.setAssociative sets).Inv count) (a : CacheAddress) :
    (accessSet sets a (count + 1)).store.Inv (count + 1) := by
  rw [CacheStore.inv_setAssociative] at h
  rcases accessSet_cases sets a (count + 1) with ⟨w, hhit, -, hs⟩ | ⟨hmiss, -, hs⟩ <;>
    rw [hs, CacheStore.inv_setAssociative, wayAt_set_eq_update]
  · exact h.touch (i := (setIndex a, w)) (hitLine_eq_some hhit).1
  · refine h.fill (setTag_spells a _) fun ⟨k, w⟩ _ hk => ?_
    obtain rfl : k = setIndex a := hk
    exact hitLine_eq_none.1 hmiss w (mem_wayOrder w)

theorem accessFull_inv {lines : Vector CacheLine 8} {count : Nat} (h : (CacheStore.fullyAssociative lines).Inv count)
    (a : CacheAddress) : (accessFull lines a (count + 1)).store.Inv (count + 1) := by
  rw [CacheStore.inv_fullyAssociative] at h
  rcases accessFull_cases lines a (count + 1) with ⟨i, hhit, -, hs⟩ | ⟨hmiss, -, hs⟩ <;>
    rw [hs, CacheStore.inv_fullyAssociative, getElem_set_eq_update]
  · exact h.touch (hitLine_eq_some hhit).1
  · exact h.fill rfl fun j _ _ => hitLine_eq_none.1 hmiss j (mem_lineOrder j)

/-- An access counted keeps the invariant of the lines, under every policy. -/
theorem accessStore_inv {st : CacheStore} {count : Nat} (h : st.Inv count) (a : CacheAddress) :
    (accessStore st a (count + 1)).store.Inv (count + 1) := by
  cases st with
  | direct lines => exact accessDirect_inv h a
  | setAssociative sets => exact accessSet_inv h a
  | fullyAssociative lines => exact accessFull_inv h a

/-! ### The transactions -/

/-- A policy newly set starts from cleared lines and counters at 0. -/
theorem Cache.configured_inv (ctrWidth : Nat) (c : Cache) (p : Policy) : (c.configured p).Inv ctrWidth :=
  ⟨le_rfl, Nat.zero_le _, fun hf => absurd rfl hf, CacheStore.cleared_inv p 0⟩

theorem acceptAccess_inv (a : Int) {s : State} (hs : s.cache.Inv s.params.ctrWidth) (hf : s.cache.fault = none)
    (hlast : s.cache.accessCount ≠ lastCount s.params.ctrWidth) :
    (acceptAccess a s).cache.Inv s.params.ctrWidth := by
  obtain ⟨hhits, hcount, -⟩ := acceptAccess_countersFit a hs.countersFit hlast
  obtain ⟨-, -, -, hstore⟩ := hs
  exact ⟨hhits, hcount, fun hne => absurd hf hne, accessStore_inv hstore _⟩

/-- Only an accepted access writes a line or a counter, and only an access at the last count raises the fault. -/
theorem access_inv (a : Int) {s : State} (hs : s.cache.Inv s.params.ctrWidth) :
    (access a s).cache.Inv s.params.ctrWidth := by
  rcases access_cases a s with ⟨-, h⟩ | ⟨-, -, h⟩ | ⟨-, -, hlast, h⟩ | ⟨hf, -, hlast, h⟩ <;> rw [h]
  · exact hs
  · exact hs
  · obtain ⟨hhits, hcount, -, hstore⟩ := hs
    exact ⟨hhits, hcount, fun _ => hlast, hstore⟩
  · exact acceptAccess_inv a hs hf hlast

theorem step_cacheInv {s t : State} (h : step s = .next t) (hs : s.cache.Inv s.params.ctrWidth) :
    t.cache.Inv t.params.ctrWidth := by
  rw [(step_frame h).1]
  rcases step_next h with h | ⟨src, rfl⟩ | rfl | ⟨p, rfl⟩ | ⟨a, rfl⟩ | rfl
  · rw [(cpuStep_next h).2.1]; exact hs
  · rw [(loadProgram_frame src _).1]; exact hs
  · exact hs
  · exact Cache.configured_inv _ _ p
  · exact access_inv a hs
  · exact Cache.configured_inv _ s.cache s.cache.store.policy

end Sys2Proof.Machine

open Sys2Proof Sys2Proof.Machine

/-- Settles O28: an access replaces one line by one marked with a new access_time, and no other transaction writes a line
without clearing all of them. -/
theorem stepKeepsCacheInvariant : Obligations.StepKeepsCacheInvariant := fun _ _ hs h => step_cacheInv h hs
end

section
/-! PROOF. O27, O26, O29, O30: every step keeps the CPU Engine's invariant, so every run from power-on answers a next
state that meets the invariant of both engines (10_state.md R20 to R28, R37). -/

namespace Sys2Proof.Machine

/-! ### The program and PC -/

theorem programWf_length {p : List ProgRecord} (h : programWf p = true) : p.length ≤ memCells := by
  simp only [programWf, Bool.and_eq_true, decide_eq_true_eq] at h
  obtain ⟨⟨hlen, -⟩, -⟩ := h
  exact hlen

/-- PC never passes the last cell by more than one, and 16 records of 3 micro-steps each are the most it counts
(10_state.md R22, R26). -/
theorem Cpu.Inv.bounds {p : Params} {c : Cpu} (h : c.Inv p) : c.progLen ≤ memCells ∧ c.currentStep ≤ 48 := by
  obtain ⟨-, -, hprog, hpc, hcount, -⟩ := h
  have hlen : c.progLen ≤ memCells := programWf_length hprog
  have : memCells = 16 := rfl
  exact ⟨hlen, by omega⟩

/-- The stop test lets a FETCH through only within the program (40_cpu_cycle.md R121, R123). -/
theorem State.pc_lt_of_fetch {s : State} (hs : s.stops = false) (hp : s.cpu.phase = .fetch) :
    s.cpu.pc < s.cpu.progLen := by
  obtain ⟨-, hlt | ⟨-, hne⟩⟩ := State.stops_eq_false.1 hs
  · exact hlt
  · exact absurd hp hne

/-! ### The phase after a micro-step is counted (40_cpu_cycle.md R122) -/

theorem Cpu.counted_phase_of_fetch {c : Cpu} (h : c.phase = .fetch) : c.counted.phase = .decode := by
  rw [Cpu.phase_eq_fetch] at h
  rw [Cpu.phase_eq_decode, Cpu.counted_currentStep]; omega

theorem Cpu.counted_phase_of_decode {c : Cpu} (h : c.phase = .decode) : c.counted.phase = .execute := by
  rw [Cpu.phase_eq_decode] at h
  rw [Cpu.phase_eq_execute, Cpu.counted_currentStep]; omega

theorem Cpu.counted_phase_of_execute {c : Cpu} (h : c.phase = .execute) : c.counted.phase = .fetch := by
  rw [Cpu.phase_eq_execute] at h
  rw [Cpu.phase_eq_fetch, Cpu.counted_currentStep]; omega

/-! ### What EXECUTE keeps -/

/-- EXECUTE keeps everything but AC, MBR and memory (10_state.md R21). -/
theorem Cpu.executesTo_frame {p : Params} {c c' : Cpu} (h : c.executesTo p c') :
    c'.pc = c.pc ∧ c'.prog = c.prog ∧ c'.currentStep = c.currentStep ∧ c'.phase = c.phase ∧ c'.fault = c.fault := by
  rcases h with rfl | ⟨-, r, -, rfl⟩ | ⟨-, rfl⟩ <;> exact ⟨rfl, rfl, rfl, rfl, rfl⟩

theorem Cpu.executesTo_mem_wf {p : Params} {c c' : Cpu} (h : c.executesTo p c') (hm : c.mem.wf = true) :
    c'.mem.wf = true := by
  rcases h with rfl | ⟨-, r, -, rfl⟩ | ⟨hlt, rfl⟩
  · exact hm
  · exact hm
  · exact Memory.put_wf hlt c.ac hm

/-! ### Every micro-step keeps the invariant -/

/-- Right after an EXECUTE or at a launch a FETCH comes next, so nothing is asked of MAR and MBR. -/
theorem Cpu.inv_of_fetch {p : Params} {c : Cpu} (hphase : c.phase = .fetch) (hwords : c.wordsFit p = true)
    (hmem : c.mem.wf = true) (hprog : programWf c.prog = true) (hpc : c.pc ≤ c.progLen)
    (hcount : c.pc = (c.currentStep + 2) / 3) (hfault : c.running = true → c.fault = none) : c.Inv p :=
  ⟨hwords, hmem, hprog, hpc, hcount, hfault, fun h => absurd (hphase.symm.trans h) (by decide),
    fun h => absurd (hphase.symm.trans h) (by decide)⟩

/-- No micro-step, stop or fault breaks the invariant. -/
theorem Cpu.StepsTo.inv {s : State} {c : Cpu} (h : Cpu.StepsTo s c) (hs : s.cpu.Inv s.params) : c.Inv s.params := by
  have hwords := h.wordsFit hs.1
  obtain ⟨-, hmem, hprog, hpc, hcount, hfault, hdecode, hexecute⟩ := hs
  cases h with
  | stop | raise =>
    refine ⟨hwords, hmem, hprog, hpc, hcount, fun hrun => ?_, hdecode, hexecute⟩
    cases hrun
  | fetch hstops hphase =>
    have hlt := State.pc_lt_of_fetch hstops hphase
    have hnext := Cpu.counted_phase_of_fetch (c := s.cpu.fetched (Memory.cell s.cpu.mem s.cpu.pc)) hphase
    have hmod := Cpu.phase_eq_fetch.1 hphase
    refine ⟨hwords, hmem, hprog, hlt, ?_, hfault, fun _ => ⟨rfl, rfl⟩, fun h => absurd (hnext.symm.trans h) (by decide)⟩
    simp only [Cpu.counted_pc, Cpu.fetched_pc, Cpu.counted_currentStep, Cpu.fetched_currentStep]; omega
  | decode _ hphase =>
    have hnext := Cpu.counted_phase_of_decode (c := s.cpu.decoded) hphase
    have hmod := Cpu.phase_eq_decode.1 hphase
    obtain ⟨-, hmbr⟩ := hdecode hphase
    refine ⟨hwords, hmem, hprog, hpc, ?_, hfault, fun h => absurd (hnext.symm.trans h) (by decide), fun _ => ⟨rfl, hmbr⟩⟩
    simp only [Cpu.counted_pc, Cpu.decoded_pc, Cpu.counted_currentStep, Cpu.decoded_currentStep]; omega
  | execute c' hstops hphase hexec =>
    obtain ⟨hpc', hprog', hcount', hphase', hfault'⟩ := Cpu.executesTo_frame hexec
    have hmod := Cpu.phase_eq_execute.1 hphase
    refine Cpu.inv_of_fetch (Cpu.counted_phase_of_execute (hphase'.trans hphase)) hwords
      (Cpu.executesTo_mem_wf (c' := c') hexec hmem) ?_ ?_ ?_ fun _ => ?_
    · rw [Cpu.counted_prog, hprog']; exact hprog
    · rw [Cpu.counted_progLen, Cpu.progLen, Cpu.counted_pc, hpc', hprog']; exact hpc
    · rw [Cpu.counted_pc, Cpu.counted_currentStep, hpc', hcount']; omega
    · rw [Cpu.counted_fault, hfault']; exact hfault (State.stops_eq_false.1 hstops).1

/-! ### The host operations -/

theorem Cpu.cleared_inv (p : Params) : Cpu.cleared.Inv p :=
  Cpu.inv_of_fetch rfl (Cpu.cleared_wordsFit p) rfl rfl le_rfl rfl fun _ => rfl

theorem Cpu.launched_inv {p : Params} {prog : List ProgRecord} {m : Memory}
    (hwords : (Cpu.launched prog m).wordsFit p = true) (hmem : m.wf = true) (hprog : programWf prog = true) :
    (Cpu.launched prog m).Inv p :=
  Cpu.inv_of_fetch rfl hwords hmem hprog (Nat.zero_le _) (by simp) fun _ => rfl

/-- load_program launches a well-formed program, or is refused and changes nothing. -/
theorem loadProgram_cpuInv (src : List Char) {s : State} (hs : s.cpu.Inv s.params) :
    (loadProgram src s).cpu.Inv s.params := by
  have hwords := loadProgram_wordsFit src hs.1
  rcases loadProgram_cases src s with ⟨r, -, h⟩ | ⟨items, hitems, h⟩ <;> rw [h] at hwords ⊢
  · exact hs
  · obtain ⟨-, hmem, -⟩ := hs
    obtain ⟨hlen, hprog⟩ := assemble_ok hitems
    exact Cpu.launched_inv hwords (loadedMemory_wf (by rwa [List.length_map]) hmem) hprog

theorem step_cpuInv {s t : State} (h : step s = .next t) (hs : s.cpu.Inv s.params) : t.cpu.Inv t.params := by
  rw [(step_frame h).1]
  rcases step_next h with h | ⟨src, rfl⟩ | rfl | ⟨p, rfl⟩ | ⟨a, rfl⟩ | rfl
  · exact (cpuStep_next h).1.inv hs
  · exact loadProgram_cpuInv (s := s.withRequests s.requests.tail) src hs
  · exact Cpu.cleared_inv _
  · exact hs
  · rw [(access_frame a _).1]; exact hs
  · exact hs

/-! ### Runs -/

/-- Within the invariant a FETCH finds PC in M, so step() has an outcome (10_state.md R22; 40_cpu_cycle.md R124). -/
theorem cpuStep_answers_of_inv {s : State} (hs : s.cpu.Inv s.params) : ∃ t, cpuStep s = .next t := by
  rcases cpuStep_answers s with h | ⟨hstops, hphase, hpc, -⟩
  · exact h
  · exact absurd ((State.pc_lt_of_fetch hstops hphase).trans_le hs.bounds.1) hpc

theorem step_answers_of_inv {s : State} (hs : s.cpu.Inv s.params) : ∃ t, step s = .next t := by
  cases hr : s.requests with
  | nil => rw [step_of_idle hr]; exact cpuStep_answers_of_inv hs
  | cons tr rest =>
    rw [step_of_request hr]
    cases tr with
    | step => exact cpuStep_answers_of_inv (s := s.withRequests rest) hs
    | loadProgram src | cpuReset | setMappingPolicy p | access a | cacheReset => exact ⟨_, rfl⟩

theorem State.powerOn_inv (p : Params) : (State.powerOn p).Inv :=
  ⟨Cpu.cleared_inv p, le_rfl, Nat.zero_le _, fun hf => absurd rfl hf, CacheStore.cleared_inv p.initialPolicy 0⟩

/-- Every run from a state that meets the invariant answers a next state that meets it. -/
theorem run_keeps_inv (k : Nat) {s : State} (hs : s.Inv) : ∃ t, Sys2Proof.core.run k s = .next t ∧ t.Inv := by
  induction k generalizing s with
  | zero => exact ⟨s, rfl, hs⟩
  | succ k ih =>
    obtain ⟨hcpu, hcache⟩ := hs
    obtain ⟨t, h⟩ := step_answers_of_inv hcpu
    rw [run_succ_of_next h]
    exact ih ⟨step_cpuInv h hcpu, step_cacheInv h hcache⟩

end Sys2Proof.Machine

open Sys2Proof Sys2Proof.Machine

/-- Settles O27, by what a step() can do to the CPU record and by the host operations. -/
theorem stepKeepsCpuInvariant : Obligations.StepKeepsCpuInvariant := fun _ _ hs h => step_cpuInv h hs

/-- Settles O29: only a FETCH outside M has no next state, and the invariant keeps PC in the program. -/
theorem stepNeverStuck : Obligations.StepNeverStuck := fun _ hs => step_answers_of_inv hs

/-- Settles O26: both engines start cleared. -/
theorem invariantAtPowerOn : Obligations.InvariantAtPowerOn := State.powerOn_inv

/-- Settles O30: the invariant holds at power-on, whatever is pending, and every step keeps it. -/
theorem everyRunKeepsInvariant : Obligations.EveryRunKeepsInvariant := fun p requests k =>
  run_keeps_inv k (s := (State.powerOn p).withRequests requests) (State.powerOn_inv p)
end

section
/-! PROOF. O11, O23, O32: what an EXECUTE writes, by its opcode, and which transactions write the CPU record
(10_state.md R21, R23, R28). -/

namespace Sys2Proof.Machine

/-! ### What an EXECUTE writes -/

/-- What an EXECUTE of the opcode `op` may do to the CPU record: nothing, a fault, MBR and AC under LOAD and ADD, MBR
and memory under STORE. -/
def Cpu.writtenBy (op : Nibble) (c c' : Cpu) : Prop :=
  c' = c ∨ (∃ f, c' = c.faulted f) ∨ ((op = 1 ∨ op = 3) ∧ ∃ v r, c' = c.withMbrAc v r) ∨
    (op = 2 ∧ ∃ v m, c' = c.withMbrMem v m)

theorem execLoad_writes {a : OperandField} {s t : State} (h : exec (.load a) s = .next t) :
    Cpu.writtenBy 1 s.cpu t.cpu := by
  have harm : exec (.load a) s = execLoad a s := rfl
  rw [harm, execLoad] at h
  split at h <;> cases h
  · exact .inr (.inl ⟨_, rfl⟩)
  · exact .inr (.inr (.inl ⟨.inl rfl, _, _, rfl⟩))

theorem execStore_writes {a : OperandField} {s t : State} (h : exec (.store a) s = .next t) :
    Cpu.writtenBy 2 s.cpu t.cpu := by
  have harm : exec (.store a) s = execStore a s := rfl
  rw [harm, execStore] at h
  split at h <;> cases h
  · exact .inr (.inl ⟨_, rfl⟩)
  · exact .inr (.inr (.inr ⟨rfl, _, _, rfl⟩))

theorem execAdd_writes {a : OperandField} {s t : State} (h : exec (.add a) s = .next t) :
    Cpu.writtenBy 3 s.cpu t.cpu := by
  have harm : exec (.add a) s = execAdd a s := rfl
  rw [harm, execAdd] at h
  split at h
  · cases h
    exact .inr (.inl ⟨_, rfl⟩)
  · split at h <;> cases h
    · exact .inr (.inl ⟨_, rfl⟩)
    · exact .inr (.inr (.inl ⟨.inr rfl, _, _, rfl⟩))

theorem exec_writes {i : Instr} {s t : State} (h : exec i s = .next t) : Cpu.writtenBy i.opcode s.cpu t.cpu := by
  cases i with
  | load a => exact execLoad_writes h
  | store a => exact execStore_writes h
  | add a => exact execAdd_writes h
  | nop0 | nop4 | nop5 | nop6 | nop7 | nop8 | nop9 | nopA | nopB | nopC | nopD | nopE | nopF =>
    cases h
    exact .inl rfl

/-- An EXECUTE leaves everything beside the CPU record and the output alone. -/
theorem exec_frame {i : Instr} {s t : State} (h : exec i s = .next t) :
    t.cache = s.cache ∧ t.params = s.params ∧ t.requests = s.requests := by
  rcases exec_answers i s with ⟨f, he⟩ | ⟨op, v, regs, cells, c, he, -⟩ <;> rw [he] at h <;> cases h <;>
    exact ⟨rfl, rfl, rfl⟩

section WrittenBy

variable {op : Nibble} {c c' : Cpu}

theorem Cpu.writtenBy.frame (h : Cpu.writtenBy op c c') :
    c'.pc = c.pc ∧ c'.ir = c.ir ∧ c'.mar = c.mar ∧ c'.prog = c.prog ∧ c'.currentStep = c.currentStep := by
  rcases h with rfl | ⟨f, rfl⟩ | ⟨-, v, r, rfl⟩ | ⟨-, v, m, rfl⟩ <;> exact ⟨rfl, rfl, rfl, rfl, rfl⟩

theorem Cpu.writtenBy.ac_eq (h : Cpu.writtenBy op c c') (h1 : op ≠ 1) (h3 : op ≠ 3) : c'.ac = c.ac := by
  rcases h with rfl | ⟨f, rfl⟩ | ⟨hop, -⟩ | ⟨-, v, m, rfl⟩
  · rfl
  · rfl
  · exact absurd hop (not_or.2 ⟨h1, h3⟩)
  · rfl

theorem Cpu.writtenBy.mbr_eq (h : Cpu.writtenBy op c c') (h1 : op ≠ 1) (h2 : op ≠ 2) (h3 : op ≠ 3) :
    c'.mbr = c.mbr := by
  rcases h with rfl | ⟨f, rfl⟩ | ⟨hop, -⟩ | ⟨hop, -⟩
  · rfl
  · rfl
  · exact absurd hop (not_or.2 ⟨h1, h3⟩)
  · exact absurd hop h2

theorem Cpu.writtenBy.mem_eq (h : Cpu.writtenBy op c c') (h2 : op ≠ 2) : c'.mem = c.mem := by
  rcases h with rfl | ⟨f, rfl⟩ | ⟨-, v, r, rfl⟩ | ⟨hop, -⟩
  · rfl
  · rfl
  · rfl
  · exact absurd hop h2

end WrittenBy

/-! ### The opcode of the instruction in IR -/

theorem opcode_instrOf (o : Nibble) (a : OperandField) : (instrOf o a).opcode = o := by
  obtain ⟨n⟩ := o
  fin_cases n <;> rfl

/-- Bits 15:12 of IR are the opcode of the instruction EXECUTE runs (30_encoding.md R91). -/
theorem Cpu.opcode_instr (c : Cpu) : (decodeWord c.instr).opcode.toNat = c.ir / 2 ^ 12 % 16 := by
  rw [decodeWord, opcode_instrOf, Cpu.instr, opcodeField_instrWord, BitVec.toNat_ofNat]

/-! ### The observable mode (10_state.md R27) -/

theorem Cpu.mode_of_stopped {c : Cpu} (h : c.running = false) : c.mode = .stopped := by simp [Cpu.mode, h]

theorem Cpu.mode_eq_fetch {c : Cpu} : c.mode = .fetch ↔ c.running = true ∧ c.phase = .fetch := by
  unfold Cpu.mode; split <;> cases c.phase <;> simp_all

theorem Cpu.mode_eq_decode {c : Cpu} : c.mode = .decode ↔ c.running = true ∧ c.phase = .decode := by
  unfold Cpu.mode; split <;> cases c.phase <;> simp_all

theorem Cpu.mode_eq_execute {c : Cpu} : c.mode = .execute ↔ c.running = true ∧ c.phase = .execute := by
  unfold Cpu.mode; split <;> cases c.phase <;> simp_all

/-! ### Which transactions write the CPU record -/

/-- A step() writes memory only in the EXECUTE of a STORE. -/
theorem cpuStep_writes_mem {s t : State} (h : cpuStep s = .next t) (hne : t.cpu.mem ≠ s.cpu.mem) :
    s.stops = false ∧ s.cpu.phase = .execute ∧ s.cpu.ir / 2 ^ 12 % 16 = 2 := by
  have hto := (cpuStep_next h).1
  generalize hc : t.cpu = c at hto
  cases hto with
  | stop | fetch | decode | raise => rw [hc] at hne; exact absurd rfl hne
  | execute c' hstops hphase =>
    refine ⟨hstops, hphase, ?_⟩
    rw [cpuStep_of_execute hstops hphase, executeMicroStep] at h
    split at h <;> cases h
    next u hu =>
      have hmem : (countUnlessFaulted u).cpu.mem = u.cpu.mem := by unfold countUnlessFaulted; split <;> rfl
      rw [hmem] at hne
      have hop : (decodeWord s.cpu.instr).opcode = 2 := by
        by_contra hop
        exact hne ((exec_writes hu).mem_eq hop)
      rw [← Cpu.opcode_instr, hop]; rfl

/-- A step() keeps a recorded fault (60_exceptions.md R262). -/
theorem Cpu.StepsTo.fault_ne_none {s : State} {c : Cpu} (h : Cpu.StepsTo s c) (hf : s.cpu.fault ≠ none) :
    c.fault ≠ none := by
  cases h with
  | stop | fetch | decode => exact hf
  | execute c' _ _ hexec =>
    obtain ⟨-, -, -, -, hfault⟩ := Cpu.executesTo_frame hexec
    rw [Cpu.counted_fault, hfault]; exact hf
  | raise f => exact Option.some_ne_none f

/-- The CPU record is written by load_program, by CPU reset or by a step(), requested or idle. -/
theorem step_writes_cpu {s t : State} (h : step s = .next t) (hne : t.cpu ≠ s.cpu) :
    (∃ src rest, s.requests = .loadProgram src :: rest) ∨ (∃ rest, s.requests = .cpuReset :: rest) ∨
    ((s.requests = [] ∨ ∃ rest, s.requests = .step :: rest) ∧
      cpuStep (s.withRequests s.requests.tail) = .next t) := by
  cases hr : s.requests with
  | nil =>
    refine .inr (.inr ⟨.inl rfl, ?_⟩)
    rw [step_of_idle hr] at h
    rw [List.tail_nil, ← hr]; exact h
  | cons tr rest =>
    rw [step_of_request hr] at h
    cases tr with
    | loadProgram src => exact .inl ⟨src, rest, rfl⟩
    | step => exact .inr (.inr ⟨.inr ⟨rest, rfl⟩, h⟩)
    | cpuReset => exact .inr (.inl ⟨rest, rfl⟩)
    | access a => cases h; exact absurd (access_frame a _).1 hne
    | setMappingPolicy p | cacheReset => cases h; exact absurd rfl hne

end Sys2Proof.Machine

open Sys2Proof Sys2Proof.Machine

/-- Settles O11, by what an EXECUTE of each opcode may write. -/
theorem executeFrame : Obligations.ExecuteFrame := by
  intro i s t h
  obtain ⟨hcache, hparams, hrequests⟩ := exec_frame h
  have hw := exec_writes h
  obtain ⟨hpc, hir, hmar, hprog, hcount⟩ := hw.frame
  exact ⟨hpc, hir, hmar, hprog, hcount, hcache, hparams, hrequests, hw.ac_eq, hw.mbr_eq, hw.mem_eq⟩

/-- Settles O23: of the transactions that write the CPU record, step() keeps a recorded fault. -/
theorem onlyReinitialisationClearsFault : Obligations.OnlyReinitialisationClearsFault := by
  intro s t h hf ht
  have hne : t.cpu ≠ s.cpu := fun he => hf (he ▸ ht)
  rcases step_writes_cpu h hne with hload | hreset | ⟨-, hstep⟩
  · exact .inl hload
  · exact .inr hreset
  · exact absurd ht ((cpuStep_next hstep).1.fault_ne_none hf)

/-- Settles O32: of the transactions that write the CPU record, step() writes memory only in the EXECUTE of a STORE. -/
theorem onlyStoreLoadAndResetWriteMemory : Obligations.OnlyStoreLoadAndResetWriteMemory := by
  intro s t h hne
  rcases step_writes_cpu h (fun he => hne (he ▸ rfl)) with hload | hreset | ⟨hturn, hstep⟩
  · exact .inl hload
  · exact .inr (.inl hreset)
  · obtain ⟨hstops, hphase, hop⟩ := cpuStep_writes_mem hstep hne
    have hrun := (State.stops_eq_false.1 hstops).1
    exact .inr (.inr ⟨hturn, hstops, Cpu.mode_eq_execute.2 ⟨hrun, hphase⟩, hop⟩)
end

section
/-! PROOF. O21, O22, O24, O56: what a step() leaves, what a run of them comes to, and that a step request is one
(10_state.md R26, R27, R28, R40; 40_cpu_cycle.md R131, R133). -/

namespace Sys2Proof.Machine

/-! ### The mode after a step() -/

/-- A step() stops the engine, or moves its mode on; an EXECUTE that faults stops it. -/
theorem Cpu.StepsTo.mode {s : State} {c : Cpu} (h : Cpu.StepsTo s c) :
    (s.stops = true ∧ c.mode = .stopped) ∨
    (s.stops = false ∧
      ((s.cpu.mode = .fetch ∧ c.mode = .decode) ∨ (s.cpu.mode = .decode ∧ c.mode = .execute) ∨
        (s.cpu.mode = .execute ∧ (c.mode = .fetch ∨ (c.mode = .stopped ∧ c.fault ≠ none))))) := by
  cases h with
  | stop hstops => exact .inl ⟨hstops, Cpu.mode_of_stopped rfl⟩
  | fetch hstops hphase =>
    have hrun := (State.stops_eq_false.1 hstops).1
    exact .inr ⟨hstops, .inl ⟨Cpu.mode_eq_fetch.2 ⟨hrun, hphase⟩,
      Cpu.mode_eq_decode.2 ⟨hrun, Cpu.counted_phase_of_fetch hphase⟩⟩⟩
  | decode hstops hphase =>
    have hrun := (State.stops_eq_false.1 hstops).1
    exact .inr ⟨hstops, .inr (.inl ⟨Cpu.mode_eq_decode.2 ⟨hrun, hphase⟩,
      Cpu.mode_eq_execute.2 ⟨hrun, Cpu.counted_phase_of_decode hphase⟩⟩)⟩
  | execute c' hstops hphase hexec hrun' =>
    have hrun := (State.stops_eq_false.1 hstops).1
    obtain ⟨-, -, -, hphase', -⟩ := Cpu.executesTo_frame hexec
    exact .inr ⟨hstops, .inr (.inr ⟨Cpu.mode_eq_execute.2 ⟨hrun, hphase⟩,
      .inl (Cpu.mode_eq_fetch.2 ⟨hrun', Cpu.counted_phase_of_execute (hphase'.trans hphase)⟩)⟩)⟩
  | raise f hstops hphase =>
    have hrun := (State.stops_eq_false.1 hstops).1
    exact .inr ⟨hstops, .inr (.inr ⟨Cpu.mode_eq_execute.2 ⟨hrun, hphase⟩,
      .inr ⟨Cpu.mode_of_stopped rfl, Option.some_ne_none f⟩⟩)⟩

/-! ### Runs of step() -/

/-- An engine that is not running answers the STOPPED notice and changes nothing (40_cpu_cycle.md R121). -/
theorem step_of_not_running {s : State} (hr : s.requests = []) (hrun : s.cpu.running = false) :
    step s = .next (s.respond (.stepped (.stopped .notRunning) [] [])) := by
  have hstops : s.stops = true := by simp [State.stops, hrun]
  have hstopped : s.cpu.stopped = s.cpu := by rw [Cpu.stopped, ← hrun]
  have hreason : s.cpu.stopReason = .notRunning := by simp [Cpu.stopReason, hrun]
  rw [step_of_idle hr, cpuStep_of_stops hstops, stopEngine, hstopped, hreason]
  rfl

theorem run_of_not_running (k : Nat) {s : State} (hr : s.requests = []) (hrun : s.cpu.running = false) :
    Sys2Proof.core.run (k + 1) s = .next (s.respond (.stepped (.stopped .notRunning) [] [])) := by
  induction k generalizing s with
  | zero => exact run_succ_of_next (step_of_not_running hr hrun) 0
  | succ k ih => exact (run_succ_of_next (step_of_not_running hr hrun) (k + 1)).trans (ih (s := s.respond _) hr hrun)

/-- A step() leaves the engine stopped, or has counted one more micro-step of an engine that was running. -/
theorem Cpu.StepsTo.stopped_or_counted {s : State} {c : Cpu} (h : Cpu.StepsTo s c) :
    c.running = false ∨ (s.cpu.running = true ∧ c.currentStep = s.cpu.currentStep + 1) := by
  cases h with
  | stop | raise => exact .inl rfl
  | fetch hstops | decode hstops => exact .inr ⟨(State.stops_eq_false.1 hstops).1, rfl⟩
  | execute c' hstops _ hexec =>
    obtain ⟨-, -, hcount, -⟩ := Cpu.executesTo_frame hexec
    exact .inr ⟨(State.stops_eq_false.1 hstops).1, by rw [Cpu.counted_currentStep, hcount]⟩

/-- `k` step() calls leave the engine stopped, or have counted `k` micro-steps. -/
theorem run_stopped_or_counted (k : Nat) {s : State} (hs : s.cpu.Inv s.params) (hr : s.requests = []) :
    ∃ t, Sys2Proof.core.run k s = .next t ∧ t.cpu.Inv t.params ∧
      (t.cpu.running = false ∨ (s.cpu.running = true ∧ t.cpu.currentStep = s.cpu.currentStep + k)) := by
  induction k generalizing s with
  | zero =>
    refine ⟨s, rfl, hs, ?_⟩
    cases hrun : s.cpu.running with
    | false => exact .inl rfl
    | true => exact .inr ⟨rfl, rfl⟩
  | succ k ih =>
    obtain ⟨t, h⟩ := step_answers_of_inv hs
    have htr : t.requests = [] := by rw [(step_frame h).2, hr]; rfl
    obtain ⟨u, hu, hinv, hend⟩ := ih (step_cpuInv h hs) htr
    refine ⟨u, (run_succ_of_next h k).trans hu, hinv, ?_⟩
    have hstep := (cpuStep_next ((step_of_idle hr).symm.trans h)).1
    rcases hend with hstop | ⟨hrun, hcount⟩
    · exact .inl hstop
    · rcases hstep.stopped_or_counted with hstop | ⟨hrun', hcount'⟩
      · rw [hstop] at hrun; cases hrun
      · exact .inr ⟨hrun', by omega⟩

end Sys2Proof.Machine

open Sys2Proof Sys2Proof.Machine

/-- Settles O21: a step() with nothing pending moves the mode on, or stops. -/
theorem modeAfterStep : Obligations.ModeAfterStep := by
  intro s t hr h
  rw [step_of_idle hr] at h
  rcases (cpuStep_next h).1.mode with ⟨hstops, hmode⟩ | ⟨hstops, ⟨hbefore, hmode⟩ | ⟨hbefore, hmode⟩ | ⟨hbefore, hmode⟩⟩
  · simp [hstops, hmode]
  · simp [hstops, hbefore, hmode]
  · simp [hstops, hbefore, hmode]
  · simpa [hstops, hbefore] using hmode

/-- Settles O22: a faulted engine does not run, and one that does not run stays as it is. -/
theorem faultedEngineStaysStopped : Obligations.FaultedEngineStaysStopped := fun _ k hr _ hrun =>
  run_of_not_running k hr hrun

/-- Settles O24: 49 micro-steps are more than the invariant allows. -/
theorem engineStopsWithin49Steps : Obligations.EngineStopsWithin49Steps := by
  intro s hs hr
  obtain ⟨t, hrun, hinv, hend⟩ := run_stopped_or_counted 49 hs hr
  have hbound := hinv.bounds.2
  refine ⟨t, hrun, ?_, hbound⟩
  rcases hend with hstop | ⟨-, hcount⟩
  · exact hstop
  · omega

/-- Settles O56: a step() reads no request, so taking one off for it changes nothing else. -/
theorem stepRequestIsStep : Obligations.StepRequestIsStep := by
  intro s rest hr
  have hidle : step (s.withRequests []) = cpuStep (s.withRequests []) := step_of_idle rfl
  have hrequest : step s = cpuStep (s.withRequests rest) := step_of_request hr
  obtain ⟨hnext, hfault⟩ := cpuStep_reads (s := s.withRequests []) (u := s.withRequests rest) rfl rfl
  rw [hrequest]
  refine ⟨fun t ht => ?_, fun r h => hfault r (hidle.symm.trans h)⟩
  have h : cpuStep (s.withRequests []) = .next t := hidle.symm.trans ht
  obtain ⟨-, hcache, hparams, -⟩ := cpuStep_next h
  rw [hnext t h]
  simp only [State.withRequests, hcache, hparams]
end

section
/-! PROOF. O48 and O35: what an accepted access counts and logs (45_cache_engine.md R226, R227), and the state at
power-on (10_state.md R42, R43). -/

namespace Sys2Proof.Machine

/-- An access keeps the policy in force (10_state.md R30). -/
theorem accessStore_policy (st : CacheStore) (a : CacheAddress) (now : Nat) :
    (accessStore st a now).store.policy = st.policy := by
  cases st with
  | direct lines => rfl
  | setAssociative sets =>
    rcases accessSet_cases sets a now with ⟨w, -, -, hs⟩ | ⟨-, -, hs⟩ <;> rw [accessStore, hs] <;> rfl
  | fullyAssociative lines =>
    rcases accessFull_cases lines a now with ⟨i, -, -, hs⟩ | ⟨-, -, hs⟩ <;> rw [accessStore, hs] <;> rfl

/-- No cell is listed at power-on, so each reads as 0 (10_state.md R42). -/
theorem Memory.read_nil {a : Nat} (h : a < memCells) : Memory.read [] a = some 0 := Memory.read_of_lt h []

end Sys2Proof.Machine

open Sys2Proof Sys2Proof.Machine

/-- Settles O48, from the counters, the answer and the record of an accepted access. -/
theorem acceptedAccessCounts : Obligations.AcceptedAccessCounts := by
  intro s address rest h
  obtain ⟨hstep, -, -⟩ := step_of_acceptsAccess h
  obtain ⟨-, hfault, -, -, -⟩ := h
  obtain ⟨o, r, rfl, -, houtput, hlog⟩ := acceptAccess_output address (s.withRequests rest)
  exact ⟨_, _, _, hstep, houtput, hlog, acceptAccess_accessCount _ _, acceptAccess_hitCount _ _, hfault,
    accessStore_policy _ _ _, rfl⟩

/-- Settles O35: each field at power-on is the one written there. -/
theorem powerOnState : Obligations.PowerOnState := fun _ =>
  ⟨rfl, Cpu.mode_of_stopped rfl, fun _ ha => Memory.read_nil ha, rfl, rfl, rfl, rfl⟩
end

section
/-! PROOF. O20: a STORE to the cell at PC is seen by the FETCH after it (20_memory.md R72; 70_reset_and_hazards.md
R295). -/

namespace Sys2Proof.Machine

/-- The opcode field 2 in IR selects STORE (30_encoding.md R93). -/
theorem Cpu.decodeWord_of_store {c : Cpu} (h : c.ir / 2 ^ 12 % 16 = 2) : ∃ addr, decodeWord c.instr = .store addr := by
  have hop : opcodeField c.instr = 2 := by
    apply BitVec.eq_of_toNat_eq
    rw [Cpu.instr, opcodeField_instrWord, BitVec.toNat_ofNat]
    exact h
  exact ⟨addrField c.instr, by rw [decodeWord, hop]; rfl⟩

/-- STORE to a cell that exists: AC to MBR and to that cell (41_cpu_instructions.md R155). -/
theorem execStore_of_lt {s : State} (h : s.cpu.mar < memCells) (addr : OperandField) :
    exec (.store addr) s = .next (completed .store (some s.cpu.ac) [.mbr] [s.cpu.operandAddress]
      (s.cpu.withMbrMem s.cpu.ac (Memory.put s.cpu.mem s.cpu.mar s.cpu.ac)) s) := by
  have harm : exec (.store addr) s = execStore addr s := rfl
  rw [harm, execStore, Cpu.writeOperand_eq_some.2 ⟨h, rfl⟩]

/-- The step() that runs a STORE to a cell that exists. -/
theorem step_of_store {s : State} (h : s.atPhase .execute) (hop : s.cpu.ir / 2 ^ 12 % 16 = 2)
    (hlt : s.cpu.mar < memCells) :
    ∃ t, step s = .next t ∧ t.requests = s.requests ∧ t.params = s.params ∧
      t.cpu = (s.cpu.withMbrMem s.cpu.ac (Memory.put s.cpu.mem s.cpu.mar s.cpu.ac)).counted := by
  obtain ⟨hr, hstops, hphase⟩ := h
  obtain ⟨hrun, -⟩ := State.stops_eq_false.1 hstops
  obtain ⟨addr, hdecode⟩ := Cpu.decodeWord_of_store hop
  rw [step_of_idle hr, cpuStep_of_execute hstops hphase, executeMicroStep, hdecode, execStore_of_lt hlt]
  exact ⟨_, congrArg Host.Outcome.next (if_pos hrun), rfl, rfl, rfl⟩

/-- The step() that runs a FETCH within M (40_cpu_cycle.md R124). -/
theorem step_of_fetch {s : State} (h : s.atPhase .fetch) (hlt : s.cpu.pc < memCells) :
    ∃ t, step s = .next t ∧ t.cpu = (s.cpu.fetched (Memory.cell s.cpu.mem s.cpu.pc)).counted := by
  obtain ⟨hr, hstops, hphase⟩ := h
  rw [step_of_idle hr, cpuStep_of_fetch hstops hphase, countedFetch, fetchMicroStep_of_lt hlt]
  exact ⟨_, rfl, rfl⟩

end Sys2Proof.Machine

open Sys2Proof Sys2Proof.Machine

/-- Settles O20: after the STORE the engine stands at the FETCH of the cell just written. -/
theorem fetchSeesStore : Obligations.FetchSeesStore := by
  intro s hat hlen hwf hpc hop hmar
  have hcell : s.cpu.pc < memCells := hpc.trans_le hlen
  obtain ⟨t, hstore, htr, -, htcpu⟩ := step_of_store hat hop (hmar ▸ hcell)
  obtain ⟨hr, hstops, hphase⟩ := hat
  obtain ⟨hrun, -⟩ := State.stops_eq_false.1 hstops
  have htat : t.atPhase .fetch := by
    refine ⟨htr.trans hr, State.stops_eq_false.2 ?_, ?_⟩ <;> rw [htcpu]
    · exact ⟨hrun, .inl hpc⟩
    · exact Cpu.counted_phase_of_execute hphase
  obtain ⟨u, hfetch, hucpu⟩ := step_of_fetch htat (by rw [htcpu]; exact hcell)
  refine ⟨t, u, hstore, by rw [htcpu]; rfl, hfetch, ?_, by rw [hucpu, htcpu]; rfl⟩
  rw [hucpu, htcpu, hmar]
  exact Memory.cell_put_same s.cpu.pc s.cpu.ac hwf
end

section
/-! PROOF. O53: the second of two equal accesses hits and changes no data (20_memory.md R74; 45_cache_engine.md
R212). -/

namespace Sys2Proof.Machine

/-! ### A hit keeps the contents -/

/-- Replacing an element by one with the same image keeps the list of images. -/
theorem map_toList_set {α β : Type} {n : Nat} (v : Vector α n) (i : Fin n) {x : α} {f : α → β} (h : f x = f v[i]) :
    (v.set i x).toList.map f = v.toList.map f := by
  have hi : i.val < (v.toList.map f).length := by simp
  have hget : f v[i] = (v.toList.map f)[i.val] := by simp
  rw [Vector.toList_set, List.map_set, h, hget, List.set_getElem_self hi]

theorem CacheLine.touched_content (l : CacheLine) (now : Nat) : (l.touched now).content = l.content := rfl

/-- A hit refreshes one access_time and nothing else (45_cache_engine.md R212). -/
theorem accessStore_contents_of_hit {st : CacheStore} {a : CacheAddress} {now : Nat}
    (h : (accessStore st a now).hit = true) : (accessStore st a now).store.contents = st.contents := by
  cases st with
  | direct lines =>
    have hh : lines[directIndex a].holds (directTag a) = true := h
    rw [accessStore, accessDirect_of_hit hh]
    exact map_toList_set lines _ (CacheLine.touched_content _ now)
  | setAssociative sets =>
    rcases accessSet_cases sets a now with ⟨w, -, -, hs⟩ | ⟨-, hmiss, -⟩
    · rw [accessStore, hs, CacheStore.contents, CacheStore.contents, List.flatMap_def, List.flatMap_def]
      exact congrArg List.flatten
        (map_toList_set sets _ (map_toList_set sets[setIndex a] w (CacheLine.touched_content _ now)))
    · cases hmiss.symm.trans h
  | fullyAssociative lines =>
    rcases accessFull_cases lines a now with ⟨i, -, -, hs⟩ | ⟨-, hmiss, -⟩
    · rw [accessStore, hs]
      exact map_toList_set lines i (CacheLine.touched_content _ now)
    · cases hmiss.symm.trans h

/-! ### An address just accessed is held -/

/-- Some candidate line of the address holds its tag. -/
def CacheStore.caches (a : CacheAddress) : CacheStore → Prop
  | .direct lines => lines[directIndex a].holds (directTag a) = true
  | .setAssociative sets => ∃ w : Fin 2, sets[setIndex a][w].holds (setTag a) = true
  | .fullyAssociative lines => ∃ i : Fin 8, lines[i].holds (fullTag a) = true

theorem CacheLine.holds_touched {l : CacheLine} {tag : CacheAddress} (h : l.valid = true ∧ l.tag = tag) (now : Nat) :
    (l.touched now).holds tag = true := CacheLine.holds_eq_true.2 h

theorem CacheLine.holds_filled (tag a : CacheAddress) (now : Nat) : (CacheLine.filled tag a now).holds tag = true :=
  CacheLine.holds_eq_true.2 ⟨rfl, rfl⟩

/-- What replaces a line at its own position is found there. -/
theorem holds_set_same {n : Nat} (lines : Vector CacheLine n) (i : Fin n) {x : CacheLine} {tag : CacheAddress}
    (h : x.holds tag = true) : (lines.set i x)[i].holds tag = true := by
  rw [getElem_set_fin, if_pos rfl]; exact h

/-- The same for a way of a set. -/
theorem holds_set_way_same (sets : Vector (Vector CacheLine 2) 4) (k : Fin 4) (w : Fin 2) {x : CacheLine}
    {tag : CacheAddress} (h : x.holds tag = true) : (sets.set k (sets[k].set w x))[k][w].holds tag = true := by
  rw [getElem_set_fin, if_pos rfl]; exact holds_set_same sets[k] w h

/-- Hit or miss, the access leaves the address held. -/
theorem accessStore_caches (st : CacheStore) (a : CacheAddress) (now : Nat) :
    (accessStore st a now).store.caches a := by
  cases st with
  | direct lines =>
    cases h : lines[directIndex a].holds (directTag a) with
    | true =>
      rw [accessStore, accessDirect_of_hit h]
      exact holds_set_same lines _ (CacheLine.holds_touched (CacheLine.holds_eq_true.1 h) now)
    | false =>
      rw [accessStore, accessDirect_of_miss h]
      exact holds_set_same lines _ (CacheLine.holds_filled _ a now)
  | setAssociative sets =>
    rcases accessSet_cases sets a now with ⟨w, hhit, -, hs⟩ | ⟨-, -, hs⟩ <;> rw [accessStore, hs]
    · exact ⟨w, holds_set_way_same sets _ w (CacheLine.holds_touched (hitLine_eq_some hhit) now)⟩
    · exact ⟨_, holds_set_way_same sets _ _ (CacheLine.holds_filled _ a now)⟩
  | fullyAssociative lines =>
    rcases accessFull_cases lines a now with ⟨i, hhit, -, hs⟩ | ⟨-, -, hs⟩ <;> rw [accessStore, hs]
    · exact ⟨i, holds_set_same lines i (CacheLine.holds_touched (hitLine_eq_some hhit) now)⟩
    · exact ⟨_, holds_set_same lines _ (CacheLine.holds_filled _ a now)⟩

/-- An access to an address held is a hit. -/
theorem accessStore_hit_of_caches {st : CacheStore} {a : CacheAddress} (h : st.caches a) (now : Nat) :
    (accessStore st a now).hit = true := by
  cases st with
  | direct lines => exact h
  | setAssociative sets =>
    obtain ⟨w, hw⟩ := h
    rcases accessSet_cases sets a now with ⟨-, -, hhit, -⟩ | ⟨hmiss, -, -⟩
    · exact hhit
    · exact absurd (CacheLine.holds_eq_true.1 hw) (hitLine_eq_none.1 hmiss w (mem_wayOrder w))
  | fullyAssociative lines =>
    obtain ⟨i, hi⟩ := h
    rcases accessFull_cases lines a now with ⟨-, -, hhit, -⟩ | ⟨hmiss, -, -⟩
    · exact hhit
    · exact absurd (CacheLine.holds_eq_true.1 hi) (hitLine_eq_none.1 hmiss i (mem_lineOrder i))

/-! ### Accepted accesses in a row -/

/-- After an accepted access the next one in range is accepted too, where a further count is left. -/
theorem acceptsAccess_next {s : State} {a b : Int} {rest : List Transaction} (h : s.acceptsAccess a (.access b :: rest))
    (hb : 0 ≤ b ∧ b < 64) (hcount : s.cache.accessCount + 2 < 2 ^ s.params.ctrWidth) :
    (acceptAccess a (s.withRequests (.access b :: rest))).acceptsAccess b rest := by
  obtain ⟨-, hfault, -⟩ := h
  exact ⟨rfl, hfault, hb.1, hb.2, Nat.lt_sub_of_add_lt hcount⟩

theorem acceptAccess_output_of_hit {a : Int} {s : State}
    (h : (accessStore s.cache.store (admitted a) (s.cache.accessCount + 1)).hit = true) :
    ∃ r, (acceptAccess a s).output = some (.accessed true r) := by
  obtain ⟨o, r, rfl, -, houtput, -⟩ := acceptAccess_output a s
  exact ⟨.access r, by rw [houtput, h]⟩

end Sys2Proof.Machine

open Sys2Proof Sys2Proof.Machine

/-- Settles O53: the first access leaves the address held, so the second hits, and a hit keeps the contents. -/
theorem repeatedAccessHits : Obligations.RepeatedAccessHits := by
  intro s address rest h hcount
  obtain ⟨hfirst, -, -⟩ := step_of_acceptsAccess h
  have hrange : 0 ≤ address ∧ address < 64 := by
    obtain ⟨-, -, h0, h64, -⟩ := h
    exact ⟨h0, h64⟩
  obtain ⟨hsecond, -, -⟩ := step_of_acceptsAccess (acceptsAccess_next h hrange hcount)
  have hhit := accessStore_hit_of_caches
    (accessStore_caches s.cache.store (admitted address) (s.cache.accessCount + 1)) (s.cache.accessCount + 1 + 1)
  obtain ⟨r, houtput⟩ := acceptAccess_output_of_hit
    (s := (acceptAccess address (s.withRequests (.access address :: rest))).withRequests rest) hhit
  exact ⟨_, _, r, hfirst, hsecond, houtput, accessStore_contents_of_hit hhit⟩
end

section
/-! PROOF. O1 to O4, O6: decoding and encoding are inverse to each other, and the opcode map (30_encoding.md R91 to
R95, R97, R103). -/

namespace Sys2Proof

/-- A word put together from an opcode and an address decodes to their instruction. -/
theorem decodeWord_append (o : Nibble) (a : OperandField) : decodeWord (o ++ a) = instrOf o a := by
  obtain ⟨hopcode, haddr⟩ := Laws.fields_of_append o a
  rw [decodeWord, hopcode, haddr]

/-- A word is its two fields (30_encoding.md R91). -/
theorem opcodeField_append_addrField (w : InstrWord) : (opcodeField w ++ addrField w : InstrWord) = w :=
  BitVec.extractLsb'_append_extractLsb' (w := 4) (len := 12)

/-- `word = (opcode << 12) | addr` in numbers (30_encoding.md R103). -/
theorem append_toNat (o : Nibble) (a : OperandField) : (o ++ a : InstrWord).toNat = o.toNat * 2 ^ 12 + a.toNat := by
  rw [BitVec.toNat_append, ← Nat.shiftLeft_add_eq_or_of_lt a.isLt, Nat.shiftLeft_eq]

theorem addr_instrOf (o : Nibble) (a : OperandField) : (instrOf o a).addr = a := by
  unfold instrOf
  split <;> rfl

/-- An instruction is the one of its opcode and its address. -/
theorem instrOf_opcode_addr (i : Instr) : instrOf i.opcode i.addr = i := by
  cases i <;> rfl

theorem encode_instrOf (o : Nibble) (a : OperandField) : encode (instrOf o a) = o ++ a := by
  rw [encode, Machine.opcode_instrOf, addr_instrOf]

/-- The instruction of an opcode other than 1, 2 and 3 is one of the no-op rows (30_encoding.md R94). -/
theorem instrOf_unassigned {o : Nibble} (h1 : o ≠ 1) (h2 : o ≠ 2) (h3 : o ≠ 3) (a : OperandField) :
    instrOf o a ∈ [Instr.nop0 a, .nop4 a, .nop5 a, .nop6 a, .nop7 a, .nop8 a, .nop9 a, .nopA a, .nopB a, .nopC a,
      .nopD a, .nopE a, .nopF a] := by
  unfold instrOf
  split
  case h_2 => exact absurd rfl h1
  case h_3 => exact absurd rfl h2
  case h_4 => exact absurd rfl h3
  all_goals simp

end Sys2Proof

open Sys2Proof Sys2Proof.Machine

/-- Settles O1: the word of an instruction has its fields, and they give it back. -/
theorem decodeOfEncode : Obligations.DecodeOfEncode := fun i =>
  calc decodeWord (encode i) = instrOf i.opcode i.addr := decodeWord_append i.opcode i.addr
    _ = i := instrOf_opcode_addr i

/-- Settles O2: the instruction of a word has the word's fields. -/
theorem encodeOfDecode : Obligations.EncodeOfDecode := fun w =>
  calc encode (decodeWord w) = opcodeField w ++ addrField w := encode_instrOf _ _
    _ = w := opcodeField_append_addrField w

/-- Settles O3: each word is put together from its row's opcode and the address. -/
theorem opcodeMapRows : Obligations.OpcodeMapRows := by
  intro a
  simp only [decodeWord_append]
  exact ⟨rfl, rfl, rfl, rfl, rfl, rfl, rfl, rfl, rfl, rfl, rfl, rfl, rfl, rfl, rfl, rfl⟩

/-- Settles O4: a word decodes to the instruction of its opcode field, assigned or not. -/
theorem opcodeBitsAloneSelect : Obligations.OpcodeBitsAloneSelect := by
  rintro w a rfl
  have hassigned : ∀ o, w.extractLsb' 12 4 = o → decodeWord w = instrOf o (w.extractLsb' 0 12) := by
    rintro o rfl
    rfl
  exact ⟨hassigned 1, hassigned 2, hassigned 3, fun h1 h2 h3 => instrOf_unassigned h1 h2 h3 _⟩

/-- Settles O6: each word is put together from the opcode and the address it is said to have. -/
theorem specWordsDecode : Obligations.SpecWordsDecode :=
  ⟨decodeWord_append 1 10, decodeWord_append 3 11, decodeWord_append 2 12, decodeWord_append 0 5,
    decodeWord_append 0 3, decodeWord_append 4 0xABC, decodeWord_append 0xF 0x123⟩
end

section
/-! PROOF. O57, O58, O40, O5: how a source text is cut, what its tokens mean, and what one line assembles to
(30_encoding.md R98 to R107). -/

namespace Sys2Proof.Machine

/-! ### Tokens (30_encoding.md R99, R100) -/

theorem isBlank_eq_false {c : Char} : isBlank c = false ↔ c ≠ ' ' ∧ c ≠ '\t' ∧ c ≠ '\r' := by
  rw [← Bool.not_eq_true, isBlank_iff, not_or, not_or]

/-- Leading whitespace of a line, a run of it, gives no token. -/
theorem tokens_append_of_blanks {blanks : List Char} (h : ∀ c ∈ blanks, isBlank c = true) (line : List Char) :
    tokens (blanks ++ line) = tokens line := by
  induction blanks with
  | nil => rfl
  | cons c blanks ih =>
    obtain ⟨hc, hblanks⟩ := List.forall_mem_cons.1 h
    rw [List.cons_append, tokens_cons_of_blank hc, ih hblanks]

/-- Characters that are no whitespace make one token, which the next whitespace ends. -/
theorem tokens_of_token {token : List Char} (hne : token ≠ []) (h : ∀ c ∈ token, isBlank c = false) :
    tokens token = [token] ∧ ∀ c rest, isBlank c = true → tokens (token ++ c :: rest) = token :: tokens rest := by
  obtain ⟨hwhole, hcut⟩ := cutAt_of_uncut h
  exact ⟨by simp [tokens, hwhole, hne], fun c rest hc => by simp [tokens, hcut c rest hc, hne]⟩

/-- A line that starts with no whitespace has a token. -/
theorem tokens_cons_ne_nil {c : Char} (h : isBlank c = false) (line : List Char) : tokens (c :: line) ≠ [] := by
  simp only [tokens, cutAt, h]
  cases cutAt isBlank line <;> simp

/-- The lines without a token are the blank lines (30_encoding.md R99). -/
theorem tokens_eq_nil {line : List Char} : tokens line = [] ↔ ∀ c ∈ line, isBlank c = true := by
  induction line with
  | nil => exact ⟨fun _ _ h => (nomatch h), fun _ => rfl⟩
  | cons c line ih =>
    rw [List.forall_mem_cons, ← ih]
    cases h : isBlank c with
    | true => simp [tokens_cons_of_blank h]
    | false => simp [tokens_cons_ne_nil h]

/-! ### Mnemonics (30_encoding.md R93, R101) -/

theorem mnemonicInstr_eq_some {m : List Char} {i : OperandField → Instr} : mnemonicInstr m = some i ↔
    (m = ['L', 'O', 'A', 'D'] ∧ i = .load) ∨ (m = ['S', 'T', 'O', 'R', 'E'] ∧ i = .store) ∨
      (m = ['A', 'D', 'D'] ∧ i = .add) := by
  unfold mnemonicInstr
  split_ifs with hload hstore hadd
  · simp [hload, eq_comm (a := i)]
  · simp [hstore, eq_comm (a := i)]
  · simp [hadd, eq_comm (a := i)]
  · simp [hload, hstore, hadd]

/-- A mnemonic takes its operand whole and fixes the opcode by itself. -/
theorem fields_of_mnemonicInstr {m : List Char} {i : OperandField → Instr} (h : mnemonicInstr m = some i)
    (a b : OperandField) : (i a).addr = a ∧ (i a).opcode = (i b).opcode := by
  rcases mnemonicInstr_eq_some.1 h with ⟨-, rfl⟩ | ⟨-, rfl⟩ | ⟨-, rfl⟩ <;> exact ⟨rfl, rfl⟩

/-- The ASCII letters a to z by their codes. -/
theorem isLower_iff_toNat {c : Char} : c.isLower = true ↔ 97 ≤ c.toNat ∧ c.toNat ≤ 122 := by
  simp [Char.isLower, UInt32.le_iff_toNat_le]

/-- a to z become A to Z, every other character stays as it is (30_encoding.md R101). -/
theorem toUpper_eq (c : Char) :
    c.toUpper = if 97 ≤ c.toNat ∧ c.toNat ≤ 122 then Char.ofNat (c.toNat - 32) else c := by
  by_cases h : c.isLower = true
  · rw [if_pos (isLower_iff_toNat.1 h), Char.toUpper_eq_of_isLower h]
  · rw [if_neg (mt isLower_iff_toNat.2 h), Char.toUpper_eq_of_not_isLower h]

/-- An ASCII token is upper-cased character by character. -/
theorem upperCase_of_ascii {m : List Char} (h : ∀ c ∈ m, c.toNat < 128) : upperCase m = m.map Char.toUpper := by
  rw [upperCase, List.map_eq_flatMap]
  exact List.flatMap_congr fun c hc => if_pos (h c hc)

/-! ### Operands (30_encoding.md R102) -/

/-- The digits 0 to 9 by their codes. -/
theorem isDigit_iff_toNat {c : Char} : c.isDigit = true ↔ 48 ≤ c.toNat ∧ c.toNat ≤ 57 := Char.isDigit_iff_toNat

theorem digitChar_toNat {d : Nat} (h : d < 10) : (Char.ofNat (48 + d)).toNat = 48 + d := by
  rw [Char.toNat_ofNat, if_pos (.inl (by omega))]

theorem decimalValue_of_nondigit {t : List Char} (h : ∃ c ∈ t, c.isDigit = false) : decimalValue t = none := by
  obtain ⟨c, hc, hdigit⟩ := h
  refine if_neg fun ⟨_, hall⟩ => ?_
  rw [List.all_eq_true.1 hall c hc] at hdigit
  cases hdigit

/-- A digit after digits, none of them included: ten times the value so far, and the digit. -/
theorem decimalValue_append_digit {t : List Char} (ht : t.all Char.isDigit = true) {d : Nat} (h : d < 10) :
    decimalValue (t ++ [Char.ofNat (48 + d)]) = some (10 * t.foldl (fun n c => 10 * n + (c.toNat - 48)) 0 + d) := by
  have hdigit : (Char.ofNat (48 + d)).isDigit = true := isDigit_iff_toNat.2 (by rw [digitChar_toNat h]; omega)
  simp [decimalValue, ht, hdigit, digitChar_toNat h, -List.all_eq_true]

theorem decimalValue_eq_some {t : List Char} {n : Nat} : decimalValue t = some n ↔
    (t ≠ [] ∧ t.all Char.isDigit = true) ∧ t.foldl (fun n c => 10 * n + (c.toNat - 48)) 0 = n :=
  Option.ite_none_right_eq_some.trans (and_congr_right fun _ => Option.some_inj)

/-! ### One line (30_encoding.md R103 to R105; 60_exceptions.md R266) -/

theorem checkedOperand_of_value {o : List Char} {n : Nat} (h : decimalValue o = some n) :
    checkedOperand (some o) = if n ≤ 4095 then .ok n else .error .operandTooLarge := by
  simp [checkedOperand, h]

section Line

variable {line : Nat} {text m : List Char}

theorem assembleLine_of_one_token (h : tokens text = [m]) :
    assembleLine line text = (assembleTokens line m none).map some := by
  simp [assembleLine, h]

theorem assembleLine_of_two_tokens {o : List Char} (h : tokens text = [m, o]) :
    assembleLine line text = (assembleTokens line m (some o)).map some := by
  simp [assembleLine, h]

theorem assembleLine_of_more_tokens (h : 2 < (tokens text).length) : assembleLine line text = .error .badSyntax := by
  unfold assembleLine
  split <;> simp_all

/-- An unrecognised mnemonic encodes to 0, whatever its operand (30_encoding.md R104). -/
theorem assembleTokens_of_unrecognised (h : mnemonicInstr (upperCase m) = none) (o : Option (List Char)) :
    assembleTokens line m o = .ok (⟨upperCase m, o.bind decimalValue, line⟩, 0) := by
  simp [assembleTokens, h]

variable {i : OperandField → Instr} {o : Option (List Char)}

theorem assembleTokens_of_refused_operand (h : mnemonicInstr (upperCase m) = some i) {r : HostRefusal}
    (ho : checkedOperand o = .error r) : assembleTokens line m o = .error r := by
  simp [assembleTokens, h, ho]

theorem assembleTokens_of_operand (h : mnemonicInstr (upperCase m) = some i) {n : Nat} (ho : checkedOperand o = .ok n) :
    assembleTokens line m o = .ok (⟨upperCase m, some n, line⟩, encode (i (BitVec.ofNat 12 n))) := by
  simp [assembleTokens, h, ho]

end Line

/-- The word of a recognised mnemonic: its opcode above the 12 bits of the operand (30_encoding.md R103). -/
theorem encode_mnemonic_toNat {m : List Char} {i : OperandField → Instr} (h : mnemonicInstr m = some i) {n : Nat}
    (hn : n ≤ 4095) : (encode (i (BitVec.ofNat 12 n))).toNat = (i 0).opcode.toNat * 2 ^ 12 + n := by
  obtain ⟨haddr, hopcode⟩ := fields_of_mnemonicInstr h (BitVec.ofNat 12 n) 0
  rw [encode, haddr, hopcode, append_toNat, BitVec.toNat_ofNat, Nat.mod_eq_of_lt (by omega)]

end Sys2Proof.Machine

open Sys2Proof Sys2Proof.Machine

/-- Settles O57: a text and a line are cut at the first character that ends a piece, and an empty piece is no token. -/
theorem sourceTextSplitting : Obligations.SourceTextSplitting := by
  refine ⟨fun a ha => ?_, fun blanks token hblanks => ?_⟩
  · obtain ⟨hwhole, hcut⟩ := cutAt_of_uncut (p := (· == '\n')) (a := a)
      fun c hc => beq_eq_false_iff_ne.2 fun h => ha (h ▸ hc)
    exact ⟨hwhole, fun b => hcut '\n' b rfl⟩
  · replace hblanks : ∀ c ∈ blanks, isBlank c = true := fun c hc => isBlank_iff.2 (hblanks c hc)
    refine ⟨tokens_eq_nil.2 hblanks, fun hne htoken => ?_⟩
    obtain ⟨hwhole, hcut⟩ := tokens_of_token hne fun c hc => isBlank_eq_false.2 (htoken c hc)
    refine ⟨(tokens_append_of_blanks hblanks token).trans hwhole, fun c rest hc => ?_⟩
    rw [List.append_assoc, tokens_append_of_blanks hblanks, hcut c rest (isBlank_iff.2 hc)]

/-- Settles O58: the mnemonics are listed, ASCII is upper-cased as `Char.toUpper` does it, and an operand's value grows
digit by digit. -/
theorem tokenMeaning : Obligations.TokenMeaning := by
  refine ⟨fun m i => mnemonicInstr_eq_some, fun m hm => ?_, rfl, fun t ht => ?_, fun d hd => ?_,
    fun t n d ht hd => ?_⟩
  · rw [upperCase_of_ascii hm]
    exact List.map_congr_left fun c _ => toUpper_eq c
  · obtain ⟨c, hc, hrange⟩ := ht
    refine decimalValue_of_nondigit ⟨c, hc, ?_⟩
    rw [← Bool.not_eq_true, isDigit_iff_toNat]
    omega
  · simpa using decimalValue_append_digit (t := []) rfl hd
  · obtain ⟨⟨-, hdigits⟩, rfl⟩ := decimalValue_eq_some.1 ht
    exact decimalValue_append_digit hdigits hd

/-- Settles O40: the number of tokens decides first, then the mnemonic, then the operand. -/
theorem sourceLineResult : Obligations.SourceLineResult := by
  intro line text
  refine ⟨?_, fun h => by simp [assembleLine, h], assembleLine_of_more_tokens, fun m h i hi => ?_,
    fun m o i h hi => ?_, fun m h hm => ?_, fun m o h hm => ?_⟩
  · simp only [tokens_eq_nil, isBlank_iff]
  · rw [assembleLine_of_one_token h, assembleTokens_of_refused_operand hi rfl]; rfl
  · rw [assembleLine_of_two_tokens h]
    refine ⟨fun ho => ?_, fun n ho hn => ?_, fun n ho hn => ?_⟩
    · have hcheck : checkedOperand (some o) = .error .badOperand := by simp [checkedOperand, ho]
      rw [assembleTokens_of_refused_operand hi hcheck]; rfl
    · have hcheck := (checkedOperand_of_value ho).trans (if_neg (Nat.not_le.2 hn))
      rw [assembleTokens_of_refused_operand hi hcheck]; rfl
    · have hcheck := (checkedOperand_of_value ho).trans (if_pos hn)
      rw [assembleTokens_of_operand hi hcheck]
      exact ⟨_, encode_mnemonic_toNat hi hn, rfl⟩
  · rw [assembleLine_of_one_token h, assembleTokens_of_unrecognised hm]; rfl
  · rw [assembleLine_of_two_tokens h, assembleTokens_of_unrecognised hm]; rfl

/-- Settles O5: the four lines of the document, run. -/
theorem roundTripProgramWords : Obligations.RoundTripProgramWords := by
  unfold Obligations.RoundTripProgramWords
  decide
end

section
/-! PROOF. O19: three step() calls run the word at PC on the cell its address field names (30_encoding.md R92;
40_cpu_cycle.md R122 to R126; 41_cpu_instructions.md R152 to R160). -/

namespace Sys2Proof.Machine

/-! ### From a FETCH to the EXECUTE of the word -/

/-- A FETCH within the program leaves the machine at the DECODE, unless it was the last word and the stop test is made
on every step() (40_cpu_cycle.md R121, R123). -/
theorem step_fetch_to_decode {s : State} (h : s.atPhase .fetch) (hlen : s.cpu.progLen ≤ memCells)
    (hnext : s.cpu.pc + 1 < s.cpu.progLen ∨ s.params.stopCheckEveryMicroStep = false) :
    ∃ t, step s = .next t ∧ t.atPhase .decode ∧ t.params = s.params ∧
      t.cpu = (s.cpu.fetched (Memory.cell s.cpu.mem s.cpu.pc)).counted := by
  obtain ⟨hr, hstops, hphase⟩ := h
  obtain ⟨hrun, -⟩ := State.stops_eq_false.1 hstops
  have hdecode : (s.cpu.fetched (Memory.cell s.cpu.mem s.cpu.pc)).counted.phase = .decode :=
    Cpu.counted_phase_of_fetch hphase
  rw [step_of_idle hr, cpuStep_of_fetch hstops hphase, countedFetch,
    fetchMicroStep_of_lt ((State.pc_lt_of_fetch hstops hphase).trans_le hlen)]
  refine ⟨_, rfl, ⟨hr, State.stops_eq_false.2 ⟨hrun, ?_⟩, hdecode⟩, rfl, rfl⟩
  exact hnext.imp_right fun hevery => ⟨hevery, fun hfetch => nomatch hdecode.symm.trans hfetch⟩

/-- A DECODE leaves the machine at the EXECUTE, whatever the stop test. -/
theorem step_decode_to_execute {s : State} (h : s.atPhase .decode) :
    ∃ t, step s = .next t ∧ t.atPhase .execute ∧ t.params = s.params ∧ t.cpu = s.cpu.decoded.counted := by
  obtain ⟨hr, hstops, hphase⟩ := h
  obtain ⟨hrun, hpc⟩ := State.stops_eq_false.1 hstops
  have hexecute : s.cpu.decoded.counted.phase = .execute := Cpu.counted_phase_of_decode hphase
  rw [step_of_idle hr, cpuStep_of_decode hstops hphase]
  refine ⟨_, rfl, ⟨hr, State.stops_eq_false.2 ⟨hrun, ?_⟩, hexecute⟩, rfl, rfl⟩
  exact hpc.imp_right fun ⟨hevery, _⟩ => ⟨hevery, fun hfetch => nomatch hexecute.symm.trans hfetch⟩

/-- The machine `d` stands at the EXECUTE of the word with opcode `o` and address `n` that `s` is about to fetch: MAR
names the cell, PC is past the word, and AC, memory and the parameters are still those of `s`. -/
structure State.executesWord (s d : State) (o : Nibble) (n : OperandField) : Prop where
  atPhase : d.atPhase .execute
  instr : decodeWord d.cpu.instr = instrOf o n
  mar : d.cpu.mar = n.toNat
  pc : d.cpu.pc = s.cpu.pc + 1
  ac : d.cpu.ac = s.cpu.ac
  mem : d.cpu.mem = s.cpu.mem
  params : d.params = s.params

/-- Three transactions from a FETCH end where the EXECUTE of the word at PC does. -/
theorem run_three_of_fetch {s : State} (h : s.atPhase .fetch) (hlen : s.cpu.progLen ≤ memCells)
    (hnext : s.cpu.pc + 1 < s.cpu.progLen ∨ s.params.stopCheckEveryMicroStep = false) {o : Nibble} {n : OperandField}
    (hword : Memory.cell s.cpu.mem s.cpu.pc = o.toNat * 2 ^ 12 + n.toNat) :
    ∃ d, s.executesWord d o n ∧ ∀ u, step d = .next u → Sys2Proof.core.run 3 s = .next u := by
  obtain ⟨t, hfetch, htat, htparams, htcpu⟩ := step_fetch_to_decode h hlen hnext
  obtain ⟨d, hdecode, hdat, hdparams, hdcpu⟩ := step_decode_to_execute htat
  have hinstr : t.cpu.instr = o ++ n := by
    rw [htcpu, Cpu.instr, Cpu.counted_ir, Cpu.fetched_ir, hword, ← append_toNat, instrWord_toNat]
  refine ⟨d, ⟨hdat, ?_, ?_, ?_, ?_, ?_, hdparams.trans htparams⟩, fun u hexecute => ?_⟩
  · have hkept : d.cpu.instr = t.cpu.instr := by rw [hdcpu]; rfl
    rw [hkept, hinstr, decodeWord_append]
  · rw [hdcpu, Cpu.counted_mar, Cpu.decoded_mar, hinstr, (Laws.fields_of_append o n).2]
  · rw [hdcpu, htcpu]; rfl
  · rw [hdcpu, htcpu]; rfl
  · rw [hdcpu, htcpu]; rfl
  · rw [run_succ_of_next hfetch, run_succ_of_next hdecode, run_succ_of_next hexecute]; rfl

/-! ### The EXECUTE of an assigned opcode on a cell that exists -/

/-- LOAD from a cell that exists: the cell to MBR and AC (41_cpu_instructions.md R152). -/
theorem execLoad_of_lt {s : State} (h : s.cpu.mar < memCells) (addr : OperandField) :
    exec (.load addr) s = .next (completed .load (some (Memory.cell s.cpu.mem s.cpu.mar)) [.mbr, .ac]
      [s.cpu.operandAddress]
      (s.cpu.withMbrAc (Memory.cell s.cpu.mem s.cpu.mar) (Memory.cell s.cpu.mem s.cpu.mar)) s) := by
  have harm : exec (.load addr) s = execLoad addr s := rfl
  rw [harm, execLoad, Cpu.readOperand_eq_some.2 ⟨h, rfl⟩]

/-- ADD of a cell that exists, with a result to write: the cell to MBR and the result to AC (41_cpu_instructions.md
R157). -/
theorem execAdd_of_lt {s : State} (h : s.cpu.mar < memCells) {r : Nat}
    (hr : addResult s.params s.cpu.ac (Memory.cell s.cpu.mem s.cpu.mar) = some r) (addr : OperandField) :
    exec (.add addr) s = .next (completed .add (some (Memory.cell s.cpu.mem s.cpu.mar)) [.mbr, .ac]
      [s.cpu.operandAddress] (s.cpu.withMbrAc (Memory.cell s.cpu.mem s.cpu.mar) r) s) := by
  have harm : exec (.add addr) s = execAdd addr s := rfl
  rw [harm, execAdd, Cpu.readOperand_eq_some.2 ⟨h, rfl⟩]
  simp only [hr]

/-- The step() whose EXECUTE completes counts it (40_cpu_cycle.md R122). -/
theorem step_of_completed {s : State} (h : s.atPhase .execute) {op : ExecOp} {v : Option Nat} {regs : List Reg}
    {cells : List Nat} {c : Cpu} {i : Instr} (hi : decodeWord s.cpu.instr = i)
    (hexec : exec i s = .next (completed op v regs cells c s)) (hrun : c.running = s.cpu.running) :
    step s = .next (completed op v regs cells c s).counted := by
  obtain ⟨hr, hstops, hphase⟩ := h
  obtain ⟨hrunning, -⟩ := State.stops_eq_false.1 hstops
  rw [step_of_idle hr, cpuStep_of_execute hstops hphase, executeMicroStep, hi, hexec]
  exact congrArg Host.Outcome.next (if_pos (hrun.trans hrunning))

section Operand

variable {s d : State} {n : OperandField}

theorem step_of_load_word (h : s.executesWord d 1 n) (hn : n.toNat < memCells) : ∃ t, step d = .next t ∧
    t.cpu.ac = Memory.cell s.cpu.mem n.toNat ∧ t.cpu.mbr = Memory.cell s.cpu.mem n.toNat ∧ t.cpu.mem = s.cpu.mem ∧
    t.cpu.pc = s.cpu.pc + 1 := by
  have hexec := execLoad_of_lt (s := d) (h.mar ▸ hn) n
  refine ⟨_, step_of_completed h.atPhase h.instr hexec rfl, ?_, ?_, h.mem, h.pc⟩ <;> simp [h.mar, h.mem]

theorem step_of_store_word (h : s.executesWord d 2 n) (hn : n.toNat < memCells) : ∃ t, step d = .next t ∧
    t.cpu.ac = s.cpu.ac ∧ t.cpu.mbr = s.cpu.ac ∧ t.cpu.pc = s.cpu.pc + 1 ∧
    t.cpu.mem = Memory.put s.cpu.mem n.toNat s.cpu.ac := by
  have hexec := execStore_of_lt (s := d) (h.mar ▸ hn) n
  refine ⟨_, step_of_completed h.atPhase h.instr hexec rfl, h.ac, h.ac, h.pc, ?_⟩
  simp [h.mar, h.mem, h.ac]

theorem step_of_add_word (h : s.executesWord d 3 n) (hn : n.toNat < memCells) {r : Nat}
    (hr : addResult s.params s.cpu.ac (Memory.cell s.cpu.mem n.toNat) = some r) : ∃ t, step d = .next t ∧
    t.cpu.ac = r ∧ t.cpu.mbr = Memory.cell s.cpu.mem n.toNat ∧ t.cpu.mem = s.cpu.mem ∧ t.cpu.pc = s.cpu.pc + 1 := by
  have hsum : addResult d.params d.cpu.ac (Memory.cell d.cpu.mem d.cpu.mar) = some r := by
    rw [h.params, h.ac, h.mem, h.mar, hr]
  have hexec := execAdd_of_lt (s := d) (h.mar ▸ hn) hsum n
  refine ⟨_, step_of_completed h.atPhase h.instr hexec rfl, rfl, ?_, h.mem, h.pc⟩
  simp [h.mar, h.mem]

end Operand

end Sys2Proof.Machine

open Sys2Proof Sys2Proof.Machine

/-- Settles O19: FETCH and DECODE bring the address field of the word to MAR, and the EXECUTE works on that cell. -/
theorem operandIsAbsoluteAddress : Obligations.OperandIsAbsoluteAddress := by
  intro s n hat hlen hwf hnext hn
  refine ⟨fun hword => ?_, fun hword => ?_, fun hword hsum => ?_⟩
  · obtain ⟨d, hd, hrun⟩ := run_three_of_fetch hat hlen hnext (o := 1) hword
    obtain ⟨t, hstep, heffect⟩ := step_of_load_word hd hn
    exact ⟨t, hrun t hstep, heffect⟩
  · obtain ⟨d, hd, hrun⟩ := run_three_of_fetch hat hlen hnext (o := 2) hword
    obtain ⟨t, hstep, hac, hmbr, hpc, hmem⟩ := step_of_store_word hd hn
    refine ⟨t, hrun t hstep, hac, hmbr, hpc, ?_, fun b hb => ?_⟩ <;> rw [hmem]
    · exact Memory.read_put_same hwf hn s.cpu.ac
    · exact Memory.read_put_other hb s.cpu.ac s.cpu.mem
  · obtain ⟨d, hd, hrun⟩ := run_three_of_fetch hat hlen hnext (o := 3) hword
    have hresult := addResult_of_fits (fitsWidth_of_lt (Nat.lt_succ_of_le hsum) s.params.wordWidth)
    obtain ⟨t, hstep, heffect⟩ := step_of_add_word hd hn hresult
    exact ⟨t, hrun t hstep, heffect⟩
end

section
/-! PROOF. O13 to O18: the whole next state of a step() that stops and of each micro-step, and the three step() calls
of one instruction (40_cpu_cycle.md R121 to R126). -/

namespace Sys2Proof.Machine

/-! ### The stop test (40_cpu_cycle.md R121, R123) -/

/-- An engine that does not run stops, and one past its program stops: on every step(), or before a FETCH. -/
theorem State.stops_eq_true {s : State} :
    s.stops = true ↔ s.cpu.running = false ∨
      (s.cpu.progLen ≤ s.cpu.pc ∧ (s.params.stopCheckEveryMicroStep = true ∨ s.cpu.phase = .fetch)) := by
  simp [State.stops, Cpu.exhausted]

theorem step_of_stops {s : State} (hr : s.requests = []) (h : s.stops = true) : step s = .next (stopEngine s) :=
  (step_of_idle hr).trans (cpuStep_of_stops h)

/-! ### The micro-steps (40_cpu_cycle.md R124 to R127) -/

theorem step_of_atPhase_fetch {s : State} (h : s.atPhase .fetch) (hlen : s.cpu.progLen ≤ memCells) :
    step s = .next ((s.withCpu (s.cpu.fetched (Memory.cell s.cpu.mem s.cpu.pc)).counted).respond
      (.stepped (.fetch s.cpu.pc (Memory.cell s.cpu.mem s.cpu.pc) (s.cpu.pc + 1)) [.mar, .mbr, .ir, .pc]
        [s.cpu.pc])) := by
  obtain ⟨hr, hstops, hphase⟩ := h
  have hcell : s.cpu.pc < memCells := (State.pc_lt_of_fetch hstops hphase).trans_le hlen
  rw [step_of_idle hr, cpuStep_of_fetch hstops hphase, countedFetch, fetchMicroStep_of_lt hcell]
  rfl

theorem step_of_atPhase_decode {s : State} (h : s.atPhase .decode) : step s = .next (decodeMicroStep s).counted := by
  obtain ⟨hr, hstops, hphase⟩ := h
  exact (step_of_idle hr).trans (cpuStep_of_decode hstops hphase)

theorem step_of_atPhase_execute {s t : State} (h : s.atPhase .execute)
    (hexec : exec (decodeWord s.cpu.instr) s = .next t) : step s = .next (countUnlessFaulted t) := by
  obtain ⟨hr, hstops, hphase⟩ := h
  rw [step_of_idle hr, cpuStep_of_execute hstops hphase, executeMicroStep, hexec]

theorem exec_next (i : Instr) (s : State) : ∃ t, exec i s = .next t := by
  rcases exec_answers i s with ⟨f, h⟩ | ⟨op, v, regs, cells, c, h, -⟩ <;> exact ⟨_, h⟩

/-! ### The fields DECODE reads (30_encoding.md R91) -/

theorem Cpu.opcodeField_instr (c : Cpu) : opcodeField c.instr = BitVec.ofNat 4 (c.ir / 2 ^ 12) :=
  opcodeField_instrWord c.ir

theorem Cpu.addrField_instr (c : Cpu) : addrField c.instr = BitVec.ofNat 12 c.ir := addrField_instrWord c.ir

theorem Cpu.decoded_eq (c : Cpu) : c.decoded = { c with mar := c.ir % 2 ^ 12 } := by
  rw [Cpu.decoded, Cpu.addrField_instr, BitVec.toNat_ofNat]

end Sys2Proof.Machine

open Sys2Proof Sys2Proof.Machine

/-- Settles O13: EXECUTE answers a next state for every instruction, and the step() counts it where the engine still
runs. -/
theorem stepRunsDecodedInstruction : Obligations.StepRunsDecodedInstruction := by
  intro s i hat hi
  obtain ⟨t, ht⟩ := exec_next i s
  exact ⟨t, ht, step_of_atPhase_execute hat (hi ▸ ht)⟩

/-- Settles O14: the stop test keeps PC within the program, so within M. -/
theorem fetchResult : Obligations.FetchResult := by
  intro s hat hlen w hw
  subst hw
  exact step_of_atPhase_fetch hat hlen

/-- Settles O15, from the two fields of the word in IR. -/
theorem decodeResult : Obligations.DecodeResult := by
  intro s hat
  rw [step_of_atPhase_decode hat, decodeMicroStep, Cpu.decoded_eq, Cpu.opcodeField_instr, Cpu.addrField_instr]
  rfl

/-- Settles O16, from the two sides of the stop test. -/
theorem stopResult : Obligations.StopResult := fun _ hr hevery =>
  ⟨fun h => step_of_stops hr (State.stops_eq_true.2 (h.imp_right fun hpc => ⟨hpc, .inl hevery⟩)),
    fun hrun hpc => State.stops_eq_false.2 ⟨hrun, .inl hpc⟩⟩

/-- Settles O17: phase 0 is the FETCH, the one micro-step this stop test prevents. -/
theorem alternativeStopResult : Obligations.AlternativeStopResult := by
  intro s hr hevery
  refine ⟨fun h => step_of_stops hr (State.stops_eq_true.2 ?_), fun hrun h => State.stops_eq_false.2 ⟨hrun, ?_⟩⟩
  · exact h.imp_right fun ⟨hphase, hpc⟩ => ⟨hpc, .inr (Cpu.phase_eq_fetch.2 hphase)⟩
  · exact h.symm.imp_right fun hphase => ⟨hevery, mt Cpu.phase_eq_fetch.1 hphase⟩

/-- Settles O18: the FETCH and the DECODE are each whole, the stop test passes before the DECODE and the EXECUTE, and
the third step() runs what IR decodes to. -/
theorem instructionTakesThreeSteps : Obligations.InstructionTakesThreeSteps := by
  intro s d w i hat hlen hnext hw hi hd
  obtain ⟨t, hfetch, htat, -, -⟩ := step_fetch_to_decode hat hlen hnext
  obtain ⟨d', hdecode, hdat, -, -⟩ := step_decode_to_execute htat
  have ht := Host.Outcome.next.inj (hfetch.symm.trans (step_of_atPhase_fetch hat hlen))
  have hd' : d' = d := by
    rw [Host.Outcome.next.inj (hdecode.symm.trans (step_of_atPhase_decode htat)), hd, hi, decodeWord, opcode_instrOf,
      addr_instrOf, ht, hw]
    rfl
  subst hd'
  have hinstr : decodeWord d'.cpu.instr = i := by rw [hi, hd]; rfl
  obtain ⟨u, hu⟩ := exec_next i d'
  refine ⟨u, hu, ?_⟩
  rw [run_succ_of_next hfetch, run_succ_of_next hdecode,
    run_succ_of_next (step_of_atPhase_execute hdat (hinstr ▸ hu))]
  rfl
end

section
/-! PROOF. O12: the two faults of an EXECUTE, from the check that raises them to the step() (40_cpu_cycle.md R127;
41_cpu_instructions.md R150, R157). -/

namespace Sys2Proof.Machine

/-- Bits 15:12 of IR select the instruction, and bits 11:0 are its operand (30_encoding.md R91). -/
theorem Cpu.decodeWord_of_opcode {c : Cpu} {o : Nibble} (h : c.ir / 2 ^ 12 % 16 = o.toNat) :
    decodeWord c.instr = instrOf o (addrField c.instr) := by
  have hop : opcodeField c.instr = o :=
    BitVec.eq_of_toNat_eq (by rw [Cpu.opcodeField_instr, BitVec.toNat_ofNat]; exact h)
  rw [decodeWord, hop]

/-! ### OPERAND_RANGE (41_cpu_instructions.md R150) -/

section OperandRange

variable {s : State}

theorem execLoad_of_not_lt (h : ¬ s.cpu.mar < memCells) (addr : OperandField) :
    exec (.load addr) s = .next (raiseOperandRange s) := by
  have harm : exec (.load addr) s = execLoad addr s := rfl
  rw [harm, execLoad, Cpu.readOperand_eq_none.2 h]

theorem execStore_of_not_lt (h : ¬ s.cpu.mar < memCells) (addr : OperandField) :
    exec (.store addr) s = .next (raiseOperandRange s) := by
  have harm : exec (.store addr) s = execStore addr s := rfl
  rw [harm, execStore, Cpu.writeOperand_eq_none.2 h]

theorem execAdd_of_not_lt (h : ¬ s.cpu.mar < memCells) (addr : OperandField) :
    exec (.add addr) s = .next (raiseOperandRange s) := by
  have harm : exec (.add addr) s = execAdd addr s := rfl
  rw [harm, execAdd, Cpu.readOperand_eq_none.2 h]

/-- Each assigned opcode in IR checks MAR. -/
theorem exec_instr_of_not_lt (h : ¬ s.cpu.mar < memCells) (hop : s.cpu.ir / 2 ^ 12 % 16 ∈ [1, 2, 3]) :
    exec (decodeWord s.cpu.instr) s = .next (raiseOperandRange s) := by
  simp only [List.mem_cons, List.not_mem_nil, or_false] at hop
  rcases hop with hload | hstore | hadd
  · rw [Cpu.decodeWord_of_opcode (o := 1) hload]; exact execLoad_of_not_lt h _
  · rw [Cpu.decodeWord_of_opcode (o := 2) hstore]; exact execStore_of_not_lt h _
  · rw [Cpu.decodeWord_of_opcode (o := 3) hadd]; exact execAdd_of_not_lt h _

end OperandRange

/-! ### ADD_OVERFLOW (41_cpu_instructions.md R157) -/

/-- ADD of a cell that exists, with no result to write. -/
theorem execAdd_of_overflow {s : State} (h : s.cpu.mar < memCells) {v : Nat} (hv : v = Memory.cell s.cpu.mem s.cpu.mar)
    (hr : addResult s.params s.cpu.ac v = none) (addr : OperandField) :
    exec (.add addr) s = .next (raise (.addOverflow s.cpu.ac v (s.cpu.ac + v)) s) := by
  have harm : exec (.add addr) s = execAdd addr s := rfl
  rw [harm, execAdd, Cpu.readOperand_eq_some.2 ⟨h, hv.symm⟩]
  simp only [hr]; rfl

/-- Past the width a faulting ADD has no result (00_scope.md R8). -/
theorem addResult_of_ge {p : Params} {n a b : Nat} (hwidth : p.wordWidth = .bits n) (h : 2 ^ (16 + n) ≤ a + b)
    (ho : p.addOverflow = .fault) : addResult p a b = none := by
  have hfits : fitsWidth p.wordWidth (a + b) = false := by rw [hwidth]; exact decide_eq_false (Nat.not_lt.2 h)
  exact (addResult_of_not_fits hfits).1 ho

/-! ### The step() that faults -/

/-- A fault leaves `running` false, so the step() does not count it. -/
theorem step_of_raise {s : State} {f : CpuFault} (h : s.atPhase .execute)
    (hexec : exec (decodeWord s.cpu.instr) s = .next (raise f s)) : step s = .next (raise f s) :=
  step_of_atPhase_execute h hexec

end Sys2Proof.Machine

open Sys2Proof Sys2Proof.Machine

/-- Settles O12: the check of MAR and the check of the sum each raise, and a raised fault is the whole step(). -/
theorem executeFaultAtStep : Obligations.ExecuteFaultAtStep := by
  intro s hat
  refine ⟨fun hmar hop f hf => ?_, fun hmar hop ho n v hwidth hv hsum f hf => ?_⟩
  · have hfault : exec (decodeWord s.cpu.instr) s = .next (raise f s) := by
      rw [exec_instr_of_not_lt (Nat.not_lt.2 hmar) hop, raiseOperandRange, Cpu.opcodeField_instr, hf]
    exact step_of_raise hat hfault
  · have hfault : exec (decodeWord s.cpu.instr) s = .next (raise f s) := by
      rw [Cpu.decodeWord_of_opcode (o := 3) hop, hf]
      exact execAdd_of_overflow hmar hv (addResult_of_ge hwidth hsum ho) _
    exact step_of_raise hat hfault
end

section
/-! PROOF. O25: the stop test lets exactly `State.microStepLimit` micro-steps through, so an engine that does not fault
counts them all and stops on the next call (40_cpu_cycle.md R123, R129, R133). -/

namespace Sys2Proof.Machine

/-! ### How many micro-steps the stop test lets through -/

/-- The micro-steps of a program under the stop test in force: the last word is fetched alone, or executed. -/
def State.microStepLimit (s : State) : Nat :=
  if s.params.stopCheckEveryMicroStep then 3 * s.cpu.progLen - 2 else 3 * s.cpu.progLen

theorem State.microStepLimit_congr {s t : State} (hparams : t.params = s.params) (hprog : t.cpu.prog = s.cpu.prog) :
    t.microStepLimit = s.microStepLimit := by
  simp only [State.microStepLimit, Cpu.progLen, hparams, hprog]

/-- PC is in step with currentStep, so the stop test on PC is a bound on currentStep (40_cpu_cycle.md R133). -/
theorem State.stops_eq_false_iff_lt_limit {s : State} (hs : s.cpu.Inv s.params) (hrun : s.cpu.running = true) :
    s.stops = false ↔ s.cpu.currentStep < s.microStepLimit := by
  obtain ⟨-, -, -, hpc, hcount, -⟩ := hs
  rw [State.stops_eq_false, Ne, Cpu.phase_eq_fetch, State.microStepLimit]
  cases s.params.stopCheckEveryMicroStep <;> simp [hrun] <;> omega

/-- After its last micro-step the engine has fetched every word of its program. -/
theorem Cpu.Inv.pc_of_limit {s : State} (hs : s.cpu.Inv s.params) (h : s.cpu.currentStep = s.microStepLimit) :
    s.cpu.pc = s.cpu.progLen := by
  obtain ⟨-, -, -, hpc, hcount, -⟩ := hs
  rw [State.microStepLimit] at h
  split at h <;> omega

/-! ### A step() the stop test lets through -/

/-- It keeps the program, and either faults and stops or counts and runs on. -/
theorem Cpu.StepsTo.faulted_or_counted {s : State} {c : Cpu} (h : Cpu.StepsTo s c) (hstops : s.stops = false) :
    c.prog = s.cpu.prog ∧ ((c.running = false ∧ c.fault ≠ none) ∨
      (c.running = true ∧ c.currentStep = s.cpu.currentStep + 1)) := by
  have hrun := (State.stops_eq_false.1 hstops).1
  cases h with
  | stop hstop => exact nomatch hstops.symm.trans hstop
  | fetch | decode => exact ⟨rfl, .inr ⟨hrun, rfl⟩⟩
  | execute c' _ _ hexec hrun' =>
    obtain ⟨-, hprog, hcount, -⟩ := Cpu.executesTo_frame hexec
    exact ⟨hprog, .inr ⟨hrun', congrArg (· + 1) hcount⟩⟩
  | raise f => exact ⟨rfl, .inl ⟨rfl, Option.some_ne_none f⟩⟩

/-! ### The run to the stop -/

/-- With `n` micro-steps left, `n + 1` step() calls stop the engine, which has then faulted or counted them all. -/
theorem run_to_stop (n : Nat) {s : State} (hs : s.cpu.Inv s.params) (hr : s.requests = []) (hrun : s.cpu.running = true)
    (hn : s.cpu.currentStep + n = s.microStepLimit) :
    ∃ t, Sys2Proof.core.run (n + 1) s = .next t ∧ t.cpu.running = false ∧
      (t.cpu.fault = none → t.cpu.currentStep = s.microStepLimit ∧ t.cpu.pc = s.cpu.progLen) := by
  induction n generalizing s with
  | zero =>
    have hstops : s.stops = true := by
      rw [← Bool.not_eq_false, State.stops_eq_false_iff_lt_limit hs hrun]; omega
    exact ⟨stopEngine s, run_succ_of_next (step_of_stops hr hstops) 0, rfl, fun _ => ⟨hn, hs.pc_of_limit hn⟩⟩
  | succ n ih =>
    have hstops : s.stops = false := (State.stops_eq_false_iff_lt_limit hs hrun).2 (by omega)
    obtain ⟨t, ht⟩ := step_answers_of_inv hs
    obtain ⟨hparams, htr⟩ := step_frame ht
    rw [hr, List.tail_nil] at htr
    obtain ⟨hprog, hend⟩ := (cpuStep_next ((step_of_idle hr).symm.trans ht)).1.faulted_or_counted hstops
    rcases hend with ⟨hstopped, hfault⟩ | ⟨htrun, hcount⟩
    · exact ⟨_, (run_succ_of_next ht (n + 1)).trans (run_of_not_running n htr hstopped), hstopped,
        fun hnone => absurd hnone hfault⟩
    · have hlimit := State.microStepLimit_congr hparams hprog
      obtain ⟨u, hu, hstopped, hdone⟩ := ih (step_cpuInv ht hs) htr htrun (by omega)
      rw [hlimit, Cpu.progLen, hprog] at hdone
      exact ⟨u, (run_succ_of_next ht (n + 1)).trans hu, hstopped, hdone⟩

end Sys2Proof.Machine

open Sys2Proof Sys2Proof.Machine

/-- Settles O25: with nothing counted yet the whole limit is left, 3L − 2 or 3L by the stop test. -/
theorem microStepsUntilStop : Obligations.MicroStepsUntilStop := by
  intro s l hs hr hrun hstart hlen hl
  obtain ⟨t, ht, hstopped, hdone⟩ := run_to_stop s.microStepLimit hs hr hrun (by rw [hstart, Nat.zero_add])
  rw [hlen] at hdone
  refine ⟨fun hevery => ?_, fun hevery => ?_⟩
  · have hlimit : s.microStepLimit = 3 * l - 2 := by simp [State.microStepLimit, hevery, hlen]
    have hcalls : 3 * l - 1 = 3 * l - 2 + 1 := by omega
    rw [hlimit] at ht hdone
    exact ⟨t, hcalls ▸ ht, hstopped, hdone⟩
  · have hlimit : s.microStepLimit = 3 * l := by simp [State.microStepLimit, hevery, hlen]
    rw [hlimit] at ht hdone
    exact ⟨t, ht, hstopped, hdone⟩
end

section
/-! PROOF. O7 to O10: the whole next state of the EXECUTE of each opcode (41_cpu_instructions.md R150 to R158). -/

namespace Sys2Proof.Machine

/-! ### OPERAND_RANGE (41_cpu_instructions.md R150) -/

/-- The fault's info spelled by the bits of IR (60_exceptions.md R261). -/
theorem raiseOperandRange_eq {s : State} {f : CpuFault}
    (hf : f = .operandRange (BitVec.ofNat 4 (s.cpu.ir / 2 ^ 12)) s.cpu.mar) : raiseOperandRange s = raise f s := by
  rw [raiseOperandRange, Cpu.opcodeField_instr, hf]

/-! ### What ADD writes to AC (41_cpu_instructions.md R157; 00_scope.md R8) -/

theorem fitsWidth_iff {w : WordWidth} {v : Nat} : fitsWidth w v = true ↔ ∀ n, w = .bits n → v < 2 ^ (16 + n) := by
  cases w <;> simp

/-- The exact sum is kept where it fits, and whatever its size under addOverflow = unbounded. -/
theorem addResult_of_kept {p : Params} {a b : Nat}
    (h : (∀ n, p.wordWidth = .bits n → a + b < 2 ^ (16 + n)) ∨ p.addOverflow = .unbounded) :
    addResult p a b = some (a + b) := by
  rcases h with hlt | ho
  · exact addResult_of_fits (fitsWidth_iff.2 hlt)
  · cases hfits : fitsWidth p.wordWidth (a + b) with
    | true => exact addResult_of_fits hfits
    | false =>
      obtain ⟨-, -, hunbounded⟩ := addResult_of_not_fits hfits
      exact hunbounded ho

/-- A wrapping ADD writes the sum modulo 2^WORD_WIDTH, which is the sum itself where that fits. -/
theorem addResult_of_wrap {p : Params} {n a b : Nat} (ho : p.addOverflow = .wrap) (hwidth : p.wordWidth = .bits n) :
    addResult p a b = some ((a + b) % 2 ^ (16 + n)) := by
  cases hfits : fitsWidth p.wordWidth (a + b) with
  | true => rw [addResult_of_fits hfits, Nat.mod_eq_of_lt (fitsWidth_iff.1 hfits n hwidth)]
  | false =>
    obtain ⟨-, hwrap, -⟩ := addResult_of_not_fits hfits
    rw [hwrap ho, hwidth, wrapToWidth]

/-! ### The unassigned opcodes (41_cpu_instructions.md R158) -/

theorem exec_of_unassigned {a : OperandField} {i : Instr}
    (hi : i ∈ [Instr.nop0 a, .nop4 a, .nop5 a, .nop6 a, .nop7 a, .nop8 a, .nop9 a, .nopA a, .nopB a, .nopC a, .nopD a,
      .nopE a, .nopF a]) (s : State) : exec i s = .next (noOperation s) := by
  cases i with
  | load b | store b | add b => simp at hi
  | nop0 b | nop4 b | nop5 b | nop6 b | nop7 b | nop8 b | nop9 b | nopA b | nopB b | nopC b | nopD b | nopE b
  | nopF b => rfl

end Sys2Proof.Machine

open Sys2Proof Sys2Proof.Machine

/-- Settles O7, by the two answers of the operand read. -/
theorem loadResult : Obligations.LoadResult := by
  intro a s
  refine ⟨fun hlt v hv => ?_, fun hge f hf => ?_⟩
  · subst hv
    exact execLoad_of_lt hlt a
  · rw [execLoad_of_not_lt (Nat.not_lt.2 hge), raiseOperandRange_eq hf]
    rfl

/-- Settles O8, by the two answers of the operand write; the memory is that of `Memory.put`. -/
theorem storeResult : Obligations.StoreResult := by
  intro a s hwf
  refine ⟨fun hlt => ?_, fun hge f hf => ?_⟩
  · exact ⟨Memory.put s.cpu.mem s.cpu.operandAddress s.cpu.ac, execStore_of_lt hlt a, Memory.put_wf hlt s.cpu.ac hwf,
      Memory.read_put_same hwf hlt s.cpu.ac, fun b hb => Memory.read_put_other hb s.cpu.ac s.cpu.mem⟩
  · rw [execStore_of_not_lt (Nat.not_lt.2 hge), raiseOperandRange_eq hf]
    rfl

/-- Settles O9: a result to write is the exact or the wrapped sum; without one the ADD raises. -/
theorem addResult : Obligations.AddResult := by
  intro a s v sum hv hsum
  subst hv hsum
  refine ⟨fun r hlt hr => ?_, fun n hlt hwidth hge ho => ?_, fun hge f hf => ?_⟩
  · have hresult : Machine.addResult s.params s.cpu.ac (Memory.cell s.cpu.mem s.cpu.mar) = some r := by
      rcases hr with ⟨rfl, hkept⟩ | ⟨ho, n, hwidth, rfl⟩
      · exact addResult_of_kept hkept
      · exact addResult_of_wrap ho hwidth
    exact execAdd_of_lt hlt hresult a
  · exact execAdd_of_overflow hlt rfl (addResult_of_ge hwidth hge ho) a
  · rw [execAdd_of_not_lt (Nat.not_lt.2 hge), raiseOperandRange_eq hf]
    rfl

/-- Settles O10: the no-op completes with the CPU record as it was, so the step() counts it. -/
theorem unassignedOpcodeResult : Obligations.UnassignedOpcodeResult := by
  intro a s i hi
  have hexec : exec i s = .next (noOperation s) := exec_of_unassigned hi s
  exact ⟨hexec, fun hat hdecode => step_of_completed hat hdecode hexec rfl⟩
end

section
/-! PROOF. O38, O59, O36, O37, O39, O41: CPU reset, how the lines of a text are put together, and load_program of an
accepted and of a refused text (42_cpu_host_ops.md R180 to R187). -/

namespace Sys2Proof.Machine

/-! ### The lines put together (60_exceptions.md R265) -/

section Lines
variable {line : Nat} {text : List Char} {texts : List (List Char)}

theorem assembleLines_cons_of_refused {r : HostRefusal} (h : assembleLine line text = .error r) :
    assembleLines line (text :: texts) = .error r := by
  simp [assembleLines, h]

theorem assembleLines_cons_of_ok {here : Option Assembled} (h : assembleLine line text = .ok here) :
    assembleLines line (text :: texts) = (assembleLines (line + 1) texts).map (here.toList ++ ·) := by
  simp only [assembleLines, h]
  cases assembleLines (line + 1) texts <;> rfl

/-- The first refused line decides. -/
theorem assembleLines_of_refused {k : Nat} {r : HostRefusal} (hk : texts[k]? = some text)
    (hr : assembleLine (line + k) text = .error r)
    (hearlier : ∀ j earlier, j < k → texts[j]? = some earlier → ∃ o, assembleLine (line + j) earlier = .ok o) :
    assembleLines line texts = .error r := by
  induction texts generalizing line k with
  | nil => cases hk
  | cons first rest ih =>
    cases k with
    | zero => cases hk; exact assembleLines_cons_of_refused hr
    | succ k =>
      obtain ⟨here, hhere⟩ : ∃ o, assembleLine line first = .ok o := hearlier 0 first k.succ_pos rfl
      have hrest : assembleLines (line + 1) rest = .error r :=
        ih hk (by rwa [Nat.add_assoc, Nat.add_comm 1]) fun j earlier hj htext => by
          rw [Nat.add_assoc, Nat.add_comm 1]
          exact hearlier (j + 1) earlier (Nat.succ_lt_succ hj) htext
      rw [assembleLines_cons_of_ok hhere, hrest]
      rfl

/-- Where no line is refused, the records stand in the order of their lines. -/
theorem assembleLines_of_results {results : List (Option Assembled)} (hlen : results.length = texts.length)
    (h : ∀ k text, texts[k]? = some text → ∃ o, results[k]? = some o ∧ assembleLine (line + k) text = .ok o) :
    assembleLines line texts = .ok (results.filterMap id) := by
  induction texts generalizing line results with
  | nil => rw [List.length_eq_zero_iff.1 hlen]; rfl
  | cons first rest ih =>
    cases results with
    | nil => cases hlen
    | cons here results =>
      have hfirst : assembleLine line first = .ok here := by
        obtain ⟨o, ho, hline⟩ := h 0 first rfl
        cases ho
        exact hline
      have hrest : assembleLines (line + 1) rest = .ok (results.filterMap id) :=
        ih (Nat.succ.inj hlen) fun k text htext => by
          rw [Nat.add_assoc, Nat.add_comm 1]
          exact h (k + 1) text htext
      rw [assembleLines_cons_of_ok hfirst, hrest]
      cases here <;> rfl

end Lines

theorem assemble_of_refused_line {src : List Char} {r : HostRefusal}
    (h : assembleLines 0 (sourceLines src) = .error r) : assemble src = .error r := by
  simp [assemble, h]

/-- Where no line is refused, the number of records decides (42_cpu_host_ops.md R180). -/
theorem assemble_of_lines {src : List Char} {items : List Assembled}
    (h : assembleLines 0 (sourceLines src) = .ok items) :
    assemble src = if items.length ≤ memCells then .ok items else .error .programTooLong := by
  simp [assemble, h]

/-! ### The cells load_program leaves (42_cpu_host_ops.md R183 to R185) -/

/-- The seeds in their cells, the words in the first cells, and the rest cleared or kept. -/
theorem loadedMemory_cell {clears : Bool} {words : List Nat} {m : Memory} (hlen : words.length ≤ memCells)
    (hm : m.wf = true) (a : Nat) : Memory.cell (loadedMemory clears words m) a =
      if a = 11 then 3 else if a = 10 then 5
      else (words[a]?).getD (if clears then blankCell else Memory.cell m a) := by
  have hkept : Memory.wf (if clears then [] else m) = true := by cases clears <;> simp [hm]
  have hlen' : 0 + words.length ≤ memCells := by omega
  rw [loadedMemory, seed_cell (placeFrom_wf hlen' hkept), placeFrom_cell hlen' hkept, if_pos (Nat.zero_le a),
    Nat.sub_zero]
  cases clears <;> rfl

/-! ### The step of a host operation -/

theorem step_of_cpuReset {s : State} {rest : List Transaction} (h : s.requests = .cpuReset :: rest) :
    step s = .next (cpuReset (s.withRequests rest)) := step_of_request h

section Load
variable {s : State} {src : List Char} {rest : List Transaction} (h : s.requests = .loadProgram src :: rest)
include h

theorem step_of_refused_text {r : HostRefusal} (hr : assemble src = .error r) :
    step s = .next (refuse r (s.withRequests rest)) := by
  rw [step_of_request h, perform, loadProgram, hr]

theorem step_of_accepted_text {items : List Assembled} (hitems : assemble src = .ok items) :
    step s = .next (((s.withRequests rest).withCpu (Cpu.launched (items.map Prod.fst)
      (loadedMemory s.params.loadClearsMemory (items.map assembledWord) s.cpu.mem))).respond .loaded) := by
  rw [step_of_request h, perform, loadProgram, hitems]
  rfl

end Load

end Sys2Proof.Machine

open Sys2Proof Sys2Proof.Machine

/-- Settles O38, from the cells of the memory load_program leaves. -/
theorem loadProgramResult : Obligations.LoadProgramResult := by
  intro s src items rest h hitems hwf
  obtain ⟨hlen, -⟩ := assemble_ok hitems
  have hwords : (items.map assembledWord).length ≤ memCells := by rwa [List.length_map]
  have hcell := loadedMemory_cell (clears := s.params.loadClearsMemory) hwords hwf
  refine ⟨_, step_of_accepted_text h hitems, loadedMemory_wf hwords hwf, hlen,
    Memory.read_eq_some.2 ⟨by decide, hcell 10⟩, Memory.read_eq_some.2 ⟨by decide, hcell 11⟩,
    fun a ha h10 h11 => ?_⟩
  rw [Memory.read_of_lt ha, hcell a, if_neg h11, if_neg h10, List.getElem?_map]
  refine ⟨fun x hx => ?_, fun hout => ?_⟩
  · rw [hx]; rfl
  · rw [List.getElem?_eq_none hout]; rfl

/-- Settles O59: the lines are put together in text order, and the number of their records decides last. -/
theorem assembledTextResult : Obligations.AssembledTextResult := by
  refine fun src => ⟨fun k text r hk hr hearlier => ?_, fun results hlen hresults => ?_⟩
  · refine assemble_of_refused_line (assembleLines_of_refused hk ?_ fun j earlier hj htext => ?_)
    · rwa [Nat.zero_add]
    · rw [Nat.zero_add]; exact hearlier j earlier hj htext
  · have hlines : assembleLines 0 (sourceLines src) = .ok (results.filterMap id) :=
      assembleLines_of_results hlen fun k text htext => by rw [Nat.zero_add]; exact hresults k text htext
    rw [assemble_of_lines hlines]
    exact ⟨fun hfits => if_pos hfits, fun hlong => if_neg (Nat.not_le.2 hlong)⟩

/-- Settles O36: reset writes the cleared CPU record whatever record it finds. -/
theorem cpuResetResult : Obligations.CpuResetResult := fun _ _ h => step_of_cpuReset h

/-- Settles O37: each reset writes the cleared CPU record, which is that of power-on. -/
theorem cpuResetIdempotent : Obligations.CpuResetIdempotent := fun _ _ h =>
  ⟨_, _, step_of_cpuReset h, step_of_cpuReset rfl, rfl, fun _ => rfl⟩

/-- Settles O39: a refusal answers, and writes nothing else. -/
theorem loadProgramRefused : Obligations.LoadProgramRefused := fun _ _ _ _ h hr => step_of_refused_text h hr

/-- Settles O41: with no line refused, more than 16 records refuse the text. -/
theorem longProgramRefused : Obligations.LongProgramRefused := fun _ _ _ _ h hitems hlong =>
  step_of_refused_text h ((assemble_of_lines hitems).trans (if_neg (Nat.not_le.2 hlong)))
end

section
/-! PROOF. O49 to O51, O55: what an accepted access does to the lines under each policy, and every field of its record
(45_cache_engine.md R212 to R223, R232). -/

namespace Sys2Proof.Machine

/-! ### An admitted address in numbers (45_cache_engine.md R213, R216, R220) -/

theorem directIndex_admitted {address : Int} (h : admits address = true) :
    ((directIndex (admitted address)).val : Int) = address % 8 := by
  have := admitted_toNat h
  rw [directIndex_val]; omega

theorem directIndex_admitted_eq {address : Int} (h : admits address = true) {i : Fin 8}
    (hi : (i.val : Int) = address % 8) : directIndex (admitted address) = i :=
  Fin.ext (Int.natCast_inj.1 ((directIndex_admitted h).trans hi.symm))

theorem directTag_admitted {address : Int} (h : admits address = true) :
    ((directTag (admitted address)).toNat : Int) = address / 8 := by
  have := admitted_toNat h
  rw [directTag_toNat]; omega

theorem setIndex_admitted {address : Int} (h : admits address = true) :
    ((setIndex (admitted address)).val : Int) = address % 4 := by
  have := admitted_toNat h
  rw [setIndex_val]; omega

theorem setIndex_admitted_eq {address : Int} (h : admits address = true) {k : Fin 4}
    (hk : (k.val : Int) = address % 4) : setIndex (admitted address) = k :=
  Fin.ext (Int.natCast_inj.1 ((setIndex_admitted h).trans hk.symm))

theorem setTag_admitted {address : Int} (h : admits address = true) :
    ((setTag (admitted address)).toNat : Int) = address / 4 := by
  have := admitted_toNat h
  rw [setTag_toNat]; omega

/-- The hit test of a line, with the tag looked for as a number. -/
theorem CacheLine.valid_and_tag_iff {tag : CacheAddress} {n : Int} (htag : (tag.toNat : Int) = n) (l : CacheLine) :
    l.valid = true ∧ l.tag = tag ↔ l.valid = true ∧ (l.tag.toNat : Int) = n := by
  rw [← htag, Int.natCast_inj, BitVec.toNat_inj]

/-- The line a miss leaves (45_cache_engine.md R215, R219, R223). -/
theorem CacheLine.filled_fields {tag : CacheAddress} {address n : Int} (htag : (tag.toNat : Int) = n)
    (ha : admits address = true) {l : CacheLine} {now : Nat} (h : l = .filled tag (admitted address) now) :
    l.valid = true ∧ (l.tag.toNat : Int) = n ∧ (l.data.toNat : Int) = address ∧ l.accessTime = now := by
  subst h
  exact ⟨rfl, htag, admitted_toNat ha, rfl⟩

/-! ### Reading after one line was replaced -/

theorem getElem_set_fin_self {α : Type} {n : Nat} (v : Vector α n) (i : Fin n) (x : α) : (v.set i x)[i] = x := by
  rw [getElem_set_fin, if_pos rfl]

theorem getElem_set_fin_of_ne {α : Type} {n : Nat} (v : Vector α n) {i j : Fin n} (h : j ≠ i) (x : α) :
    (v.set i x)[j] = v[j] := by
  rw [getElem_set_fin, if_neg h.symm]

theorem getElem_set_way_self (sets : Vector (Vector CacheLine 2) 4) (k : Fin 4) (w : Fin 2) (x : CacheLine) :
    (sets.set k (sets[k].set w x))[k][w] = x := by
  rw [getElem_set_fin_self, getElem_set_fin_self]

theorem getElem_set_way_of_ne (sets : Vector (Vector CacheLine 2) 4) (k : Fin 4) {w v : Fin 2} (h : v ≠ w)
    (x : CacheLine) : (sets.set k (sets[k].set w x))[k][v] = sets[k][v] := by
  rw [getElem_set_fin_self, getElem_set_fin_of_ne _ h]

/-! ### The victim, where several lines qualify -/

/-- On equal access_times way 0 is the victim (45_cache_engine.md R218). -/
theorem victimWay_eq_one_iff (ways : Vector CacheLine 2) :
    victimWay ways = 1 ↔ ways[(1 : Fin 2)].accessTime < ways[(0 : Fin 2)].accessTime := by
  have hv : victimWay ways = if ways[(1 : Fin 2)].accessTime < ways[(0 : Fin 2)].accessTime then 1 else 0 := rfl
  rw [hv]
  split_ifs with hlt
  · exact iff_of_true rfl hlt
  · exact iff_of_false Fin.zero_ne_one hlt

/-- No free line stands before the victim of a cache with a free line (45_cache_engine.md R222). -/
theorem victimLine_first_free {lines : Vector CacheLine 8} (h : ∃ i : Fin 8, lines[i].valid = false) {j : Fin 8}
    (hlt : j < (victimLine lines).1) : lines[j].valid = true := by
  cases hf : freeLine lines lineOrder with
  | none =>
    obtain ⟨i, hi⟩ := h
    rw [freeLine_eq_none.1 hf i (mem_lineOrder i)] at hi; cases hi
  | some i =>
    have hv : victimLine lines = (i, .free) := by simp only [victimLine, hf]
    rw [hv] at hlt
    exact freeLine_first lineOrder_rising hf (mem_lineOrder j) hlt

/-- Every line before the victim of a full cache was touched later (45_cache_engine.md R222). -/
theorem victimLine_first_oldest {lines : Vector CacheLine 8} (h : ∀ i : Fin 8, lines[i].valid = true) {j : Fin 8}
    (hlt : j < (victimLine lines).1) : lines[(victimLine lines).1].accessTime < lines[j].accessTime := by
  have hf : freeLine lines lineOrder = none := freeLine_eq_none.2 fun i _ => h i
  have hv : victimLine lines = (oldestLine lines 0 [1, 2, 3, 4, 5, 6, 7], .lru) := by simp only [victimLine, hf]
  simp only [hv] at hlt ⊢
  exact oldestLine_first lineOrder_rising (mem_lineOrder j) hlt

/-! ### The step of an accepted access -/

/-- The next state and the record of an accepted access, from what it did to the lines (45_cache_engine.md R210, R226,
R227, R232). -/
theorem step_of_outcome {s : State} {address : Int} {rest : List Transaction} (h : s.acceptsAccess address rest)
    {st : CacheStore} (hs : s.cache.store = st) {o : LineOutcome}
    (ho : accessStore st (admitted address) (s.cache.accessCount + 1) = o) :
    ∃ (t : State) (r : AccessRecord), step s = .next t ∧ t.cache.store = o.store ∧
      r = accessRecord st.policy address o t.cache.accessCount t.cache.hitCount ∧
      t.output = some (.accessed o.hit (.access r)) ∧
      t.cache.hitCount = if o.hit then s.cache.hitCount + 1 else s.cache.hitCount := by
  subst hs ho
  exact ⟨_, _, (step_of_acceptsAccess h).1, rfl, rfl, rfl, rfl⟩

/-- The same, for a next state and an answer already named. -/
theorem outcome_of_step {s t : State} {address : Int} {rest : List Transaction} {hit : Bool} {r : CacheRecord}
    (h : s.acceptsAccess address rest) (hstep : step s = .next t) (hout : t.output = some (.accessed hit r))
    {o : LineOutcome} (ho : accessStore s.cache.store (admitted address) (s.cache.accessCount + 1) = o) :
    t.cache.store = o.store ∧ hit = o.hit ∧
      r = .access (accessRecord s.cache.store.policy address o t.cache.accessCount t.cache.hitCount) := by
  obtain ⟨u, _, hu, hstore, rfl, huout, -⟩ := step_of_outcome h rfl ho
  obtain rfl : u = t := Host.Outcome.next.inj (hu.symm.trans hstep)
  cases huout.symm.trans hout
  exact ⟨hstore, rfl, rfl⟩

/-! ### The record's decomposition and data -/

/-- Index, tag and position under set-associative mapping (45_cache_engine.md R216). -/
theorem accessSet_fields (sets : Vector (Vector CacheLine 2) 4) (a : CacheAddress) (now : Nat) :
    (accessSet sets a now).index = some (setIndex a).val ∧ (accessSet sets a now).tag = setTag a ∧
      ∃ w, (accessSet sets a now).position = .way (setIndex a) w := by
  cases h : hitLine sets[setIndex a] wayOrder (setTag a) with
  | some w => rw [accessSet_of_hit h]; exact ⟨rfl, rfl, w, rfl⟩
  | none => rw [accessSet_of_miss h]; exact ⟨rfl, rfl, _, rfl⟩

/-- Index, tag and position under fully-associative mapping (45_cache_engine.md R220). -/
theorem accessFull_fields (lines : Vector CacheLine 8) (a : CacheAddress) (now : Nat) :
    (accessFull lines a now).index = none ∧ (accessFull lines a now).tag = a ∧
      ∃ i, (accessFull lines a now).position = .line i := by
  cases h : hitLine lines lineOrder a with
  | some i => rw [accessFull_of_hit h]; exact ⟨rfl, rfl, i, rfl⟩
  | none => rw [accessFull_of_miss h]; exact ⟨rfl, rfl, _, rfl⟩

/-- The record's fields under direct mapping, from the address as a number (45_cache_engine.md R213). -/
theorem accessStore_fields_of_direct {st : CacheStore} (hp : st.policy = .direct) {address : Int}
    (ha : admits address = true) (now : Nat) :
    (accessStore st (admitted address) now).index = some (address % 8).toNat ∧
      ((accessStore st (admitted address) now).tag.toNat : Int) = address / 8 ∧
      ∃ i : Fin 8, (i.val : Int) = address % 8 ∧ (accessStore st (admitted address) now).position = .line i := by
  cases st with
  | direct lines =>
    have hi := directIndex_admitted ha
    rw [← hi]
    exact ⟨rfl, directTag_admitted ha, _, rfl, rfl⟩
  | setAssociative sets | fullyAssociative lines => cases hp

/-- The same under set-associative mapping (45_cache_engine.md R216). -/
theorem accessStore_fields_of_setAssociative {st : CacheStore} (hp : st.policy = .setAssociative) {address : Int}
    (ha : admits address = true) (now : Nat) :
    (accessStore st (admitted address) now).index = some (address % 4).toNat ∧
      ((accessStore st (admitted address) now).tag.toNat : Int) = address / 4 ∧
      ∃ (k : Fin 4) (w : Fin 2), (k.val : Int) = address % 4 ∧
        (accessStore st (admitted address) now).position = .way k w := by
  cases st with
  | setAssociative sets =>
    have hk := setIndex_admitted ha
    obtain ⟨hindex, htag, w, hw⟩ := accessSet_fields sets (admitted address) now
    rw [accessStore, hindex, htag, hw, ← hk]
    exact ⟨rfl, setTag_admitted ha, _, w, rfl, rfl⟩
  | direct lines | fullyAssociative lines => cases hp

/-- The same under fully-associative mapping (45_cache_engine.md R220). -/
theorem accessStore_fields_of_fullyAssociative {st : CacheStore} (hp : st.policy = .fullyAssociative) {address : Int}
    (ha : admits address = true) (now : Nat) :
    (accessStore st (admitted address) now).index = none ∧
      ((accessStore st (admitted address) now).tag.toNat : Int) = address ∧
      ∃ i : Fin 8, (accessStore st (admitted address) now).position = .line i := by
  cases st with
  | fullyAssociative lines =>
    obtain ⟨hindex, htag, hposition⟩ := accessFull_fields lines (admitted address) now
    rw [accessStore, htag]
    exact ⟨hindex, admitted_toNat ha, hposition⟩
  | direct lines | setAssociative sets => cases hp

/-- The line an access answers from is valid and has the record's tag and data, and the record says how it was found
(45_cache_engine.md R212, R232). -/
theorem LineOutcome.answersFrom.fields {o : LineOutcome} {policy : Policy} {a : CacheAddress} {now : Nat}
    {old new : CacheLine} (h : o.answersFrom policy a now old new) :
    new.valid = true ∧ new.tag = o.tag ∧ new.data = o.data ∧ (o.hit = true → o.fill = none) ∧
      (o.hit = false → o.fill = some
        ⟨if policy = .direct then .direct else if old.valid then .lru else .free, old.valid, old.tag⟩) := by
  obtain ⟨hdata, ⟨hhit, hfill, hvalid, htag, rfl⟩ | ⟨hmiss, rfl, hfill⟩⟩ := h
  · exact ⟨hvalid, htag, hdata.symm, fun _ => hfill, fun hm => absurd hhit (by rw [hm]; decide)⟩
  · exact ⟨rfl, rfl, hdata.symm, fun hh => absurd hmiss (by rw [hh]; decide), fun _ => hfill⟩

/-- The data answered is the backing value of the address, on a hit too: the line that holds the tag spells the address
(45_cache_engine.md R225; 10_state.md R34). -/
theorem accessStore_data {st : CacheStore} {count : Nat} (h : st.Inv count) (a : CacheAddress) (now : Nat) :
    (accessStore st a now).data = backing a := by
  obtain ⟨old, new, hold, -, hdata, ⟨-, -, hvalid, htag, rfl⟩ | ⟨-, rfl, -⟩⟩ := accessStore_answersFrom st a now
  · rw [hdata, CacheLine.touched_data]
    apply BitVec.eq_of_toNat_eq
    cases st with
    | direct lines =>
      cases hold
      obtain ⟨-, -, hspelled⟩ := (h.1 (directIndex a)).of_valid hvalid
      exact hspelled.trans ((congrArg (lineSpells _) htag).trans (directTag_spells a).symm)
    | setAssociative sets =>
      obtain ⟨-, hsetTag, w, hw⟩ := accessSet_fields sets a now
      have htag' : old.tag = setTag a := htag.trans hsetTag
      rw [accessStore, hw] at hold
      cases hold
      obtain ⟨-, -, hspelled⟩ := (h.1 (setIndex a) w).of_valid hvalid
      exact hspelled.trans ((congrArg (waySpells (setIndex a, w)) htag').trans (setTag_spells a w).symm)
    | fullyAssociative lines =>
      obtain ⟨-, hfullTag, i, hi⟩ := accessFull_fields lines a now
      have htag' : old.tag = a := htag.trans hfullTag
      rw [accessStore, hi] at hold
      cases hold
      obtain ⟨-, -, hspelled⟩ := (h.1 i).of_valid hvalid
      exact hspelled.trans (congrArg BitVec.toNat htag')
  · exact hdata

end Sys2Proof.Machine

open Sys2Proof Sys2Proof.Machine

/-- Settles O49, by the hit test of the one candidate line. -/
theorem directAccessResult : Obligations.DirectAccessResult := by
  intro s address rest lines i h hs hi
  obtain ⟨-, ha, -⟩ := step_of_acceptsAccess h
  have htag := directTag_admitted ha
  obtain rfl := directIndex_admitted_eq ha hi
  have hiff := CacheLine.valid_and_tag_iff htag lines[directIndex (admitted address)]
  cases hh : lines[directIndex (admitted address)].holds (directTag (admitted address)) with
  | true =>
    obtain ⟨t, r, hstep, hstore, hr, hout, hhits⟩ := step_of_outcome h hs (accessDirect_of_hit hh _)
    refine ⟨t, r, _, hstep, hstore, congrArg AccessRecord.position hr,
      fun j hj => getElem_set_fin_of_ne lines hj _, ?_⟩
    rw [if_pos (hiff.1 (CacheLine.holds_eq_true.1 hh))]
    exact ⟨hout, hhits, getElem_set_fin_self lines _ _⟩
  | false =>
    obtain ⟨t, r, hstep, hstore, hr, hout, hhits⟩ := step_of_outcome h hs (accessDirect_of_miss hh _)
    refine ⟨t, r, _, hstep, hstore, congrArg AccessRecord.position hr,
      fun j hj => getElem_set_fin_of_ne lines hj _, ?_⟩
    rw [if_neg fun hc => Bool.false_ne_true (hh.symm.trans (CacheLine.holds_eq_true.2 (hiff.2 hc)))]
    exact ⟨hout, hhits, CacheLine.filled_fields htag ha (getElem_set_fin_self lines _ _)⟩

/-- Settles O50, by the scan of the two ways. -/
theorem setAssociativeAccessResult : Obligations.SetAssociativeAccessResult := by
  intro s address rest sets k h hs hk
  obtain ⟨-, ha, -⟩ := step_of_acceptsAccess h
  have htag := setTag_admitted ha
  obtain rfl := setIndex_admitted_eq ha hk
  have hiff := CacheLine.valid_and_tag_iff htag
  cases hh : hitLine sets[setIndex (admitted address)] wayOrder (setTag (admitted address)) with
  | some w =>
    obtain ⟨t, r, hstep, hstore, hr, hout, hhits⟩ := step_of_outcome h hs (accessSet_of_hit hh _)
    refine ⟨t, r, _, w, hstep, hstore, congrArg AccessRecord.position hr, fun j hj => getElem_set_fin_of_ne sets hj _,
      fun v hv => getElem_set_way_of_ne sets _ hv _, ?_⟩
    have hholds := (hiff _).1 (hitLine_eq_some hh)
    rw [if_pos ⟨w, hholds⟩]
    exact ⟨hout, hhits, hholds,
      fun v hlt hc => hitLine_first wayOrder_rising hh (mem_wayOrder v) hlt ((hiff _).2 hc),
      getElem_set_way_self sets _ w _⟩
  | none =>
    obtain ⟨t, r, hstep, hstore, hr, hout, hhits⟩ := step_of_outcome h hs (accessSet_of_miss hh _)
    refine ⟨t, r, _, victimWay sets[setIndex (admitted address)], hstep, hstore, congrArg AccessRecord.position hr,
      fun j hj => getElem_set_fin_of_ne sets hj _, fun v hv => getElem_set_way_of_ne sets _ hv _, ?_⟩
    rw [if_neg fun ⟨v, hc⟩ => hitLine_eq_none.1 hh v (mem_wayOrder v) ((hiff _).2 hc)]
    exact ⟨hout, hhits, victimWay_eq_one_iff _,
      CacheLine.filled_fields htag ha (getElem_set_way_self sets _ _ _)⟩

/-- Settles O51, by the scan of the eight lines. -/
theorem fullyAssociativeAccessResult : Obligations.FullyAssociativeAccessResult := by
  intro s address rest lines h hs
  obtain ⟨-, ha, -⟩ := step_of_acceptsAccess h
  have htag := admitted_toNat ha
  have hiff := CacheLine.valid_and_tag_iff htag
  cases hh : hitLine lines lineOrder (admitted address) with
  | some i =>
    obtain ⟨t, r, hstep, hstore, hr, hout, hhits⟩ := step_of_outcome h hs (accessFull_of_hit hh _)
    refine ⟨t, r, _, i, hstep, hstore, congrArg AccessRecord.position hr,
      fun j hj => getElem_set_fin_of_ne lines hj _, ?_⟩
    have hholds := (hiff _).1 (hitLine_eq_some hh)
    rw [if_pos ⟨i, hholds⟩]
    exact ⟨hout, hhits, hholds,
      fun j hlt hc => hitLine_first lineOrder_rising hh (mem_lineOrder j) hlt ((hiff _).2 hc),
      getElem_set_fin_self lines i _⟩
  | none =>
    obtain ⟨t, r, hstep, hstore, hr, hout, hhits⟩ := step_of_outcome h hs (accessFull_of_miss hh _)
    refine ⟨t, r, _, (victimLine lines).1, hstep, hstore, congrArg AccessRecord.position hr,
      fun j hj => getElem_set_fin_of_ne lines hj _, ?_⟩
    rw [if_neg fun ⟨j, hc⟩ => hitLine_eq_none.1 hh j (mem_lineOrder j) ((hiff _).2 hc)]
    exact ⟨hout, hhits,
      fun hfree => ⟨(victimLine_of_free hfree).2, fun j hlt => victimLine_first_free hfree hlt⟩,
      fun hfull => ⟨(victimLine_of_full hfull).2, fun j hlt => victimLine_first_oldest hfull hlt⟩,
      CacheLine.filled_fields htag ha (getElem_set_fin_self lines _ _)⟩

/-- Settles O55, from the record's own fields, the policy's decomposition and the line the access answers from. -/
theorem accessRecordFields : Obligations.AccessRecordFields := by
  intro s t address rest hit r h hstep hout
  obtain ⟨-, ha, -⟩ := step_of_acceptsAccess h
  obtain ⟨hstore, rfl, hr⟩ := outcome_of_step h hstep hout rfl
  cases hr
  obtain ⟨old, new, hold, hnew, hfrom⟩ :=
    accessStore_answersFrom s.cache.store (admitted address) (s.cache.accessCount + 1)
  rw [← hstore] at hnew
  refine ⟨rfl, rfl, rfl, rfl, rfl, fun hp => accessStore_fields_of_direct hp ha _,
    fun hp => accessStore_fields_of_setAssociative hp ha _, fun hp => accessStore_fields_of_fullyAssociative hp ha _,
    ⟨old, new, hold, hnew, hfrom.fields⟩, fun ⟨_, _, _, hlines⟩ => ?_⟩
  have hdata := accessStore_data hlines (admitted address) (s.cache.accessCount + 1)
  exact (congrArg (fun d : BitVec 6 => (d.toNat : Int)) hdata).trans (admitted_toNat ha)
end

section
/-! PROOF. O52 and O54: a miss in a full eligible set evicts the line touched first (45_cache_engine.md R224), and direct
mapping lets conflicting addresses evict each other (R213 to R215). -/

namespace Sys2Proof.Machine

/-! ### The oldest of a full set -/

/-- A line touched no later than any other is replaced by one that is touched now: with access_times apart and below now,
it was touched before every other line, and it alone changed. -/
theorem replaced_was_oldest {n : Nat} {lines : Vector CacheLine n} {v : Fin n} {x : CacheLine}
    (hvalid : ∀ i : Fin n, lines[i].valid = true) (hapart : ∀ i j : Fin n, i ≠ j → lines[i].apart lines[j])
    (hmin : ∀ j : Fin n, lines[v].accessTime ≤ lines[j].accessTime) (hnew : lines[v].accessTime < x.accessTime) :
    (lines.set v x)[v] ≠ lines[v] ∧ ∀ j : Fin n, j ≠ v →
      (lines.set v x)[j] = lines[j] ∧ lines[v].accessTime < lines[j].accessTime := by
  refine ⟨fun he => ?_, fun j hj => ⟨getElem_set_fin_of_ne lines hj x, ?_⟩⟩
  · rw [getElem_set_fin_self] at he
    exact absurd hnew (by rw [he]; exact lt_irrefl _)
  · exact lt_of_le_of_ne (hmin j) (hapart v j hj.symm (hvalid v) (hvalid j))

/-! ### Conflicting addresses -/

/-- Two addresses with one line and one tag are one address (45_cache_engine.md R213). -/
theorem directTag_ne_of_conflict {a b : CacheAddress} (hindex : directIndex a = directIndex b) (hne : a ≠ b) :
    directTag b ≠ directTag a := fun htag => hne (BitVec.eq_of_toNat_eq (by
  rw [directTag_spells a, directTag_spells b, hindex, htag]))

/-- Where a direct-mapped cache holds an address, an access to a conflicting one misses (45_cache_engine.md R214). -/
theorem accessStore_miss_of_conflict {st : CacheStore} {a b : CacheAddress} (hp : st.policy = .direct)
    (hb : st.caches b) (hindex : directIndex a = directIndex b) (hne : a ≠ b) (now : Nat) :
    (accessStore st a now).hit = false := by
  cases st with
  | direct lines =>
    obtain ⟨-, htag⟩ := CacheLine.holds_eq_true.1 hb
    refine Bool.eq_false_iff.2 fun hhit => directTag_ne_of_conflict hindex hne ?_
    obtain ⟨-, htag'⟩ := CacheLine.holds_eq_true.1 hhit
    simp only [hindex] at htag'
    exact htag.symm.trans htag'
  | setAssociative sets | fullyAssociative lines => cases hp

theorem acceptAccess_policy (a : Int) (s : State) :
    (acceptAccess a s).cache.store.policy = s.cache.store.policy := accessStore_policy _ _ _

theorem admitted_inj {a b : Int} (ha : admits a = true) (hb : admits b = true) : admitted a = admitted b ↔ a = b := by
  rw [← BitVec.toNat_inj, ← Int.natCast_inj, admitted_toNat ha, admitted_toNat hb]

end Sys2Proof.Machine

open Sys2Proof Sys2Proof.Machine

/-- Settles O52: the victim of a full set has the least access_time, and by the invariant no other line shares it. -/
theorem evictionIsLeastRecentlyUsed : Obligations.EvictionIsLeastRecentlyUsed := by
  intro s t address rest r ⟨_, _, _, hlines⟩ h hstep hout
  obtain ⟨hstore, hmiss, -⟩ := outcome_of_step h hstep hout rfl
  refine ⟨fun lines lines' hs ht hfull => ?_, fun sets sets' k hs ht hk hfull => ?_⟩
  · rw [hs] at hlines hstore hmiss
    obtain ⟨hline, hapart, -⟩ := hlines
    rcases accessFull_cases lines (admitted address) (s.cache.accessCount + 1) with ⟨-, -, hhit, -⟩ | ⟨-, -, hs'⟩
    · cases hmiss.trans hhit
    · obtain rfl := CacheStore.fullyAssociative.inj (ht.symm.trans (hstore.trans hs'))
      exact ⟨_, replaced_was_oldest hfull hapart (victimLine_of_full hfull).2
        (Nat.lt_succ_of_le (hline _).accessTime_le)⟩
  · rw [hs] at hlines hstore hmiss
    obtain ⟨hline, hapart, -⟩ := hlines
    obtain ⟨-, ha, -⟩ := step_of_acceptsAccess h
    obtain rfl := setIndex_admitted_eq ha hk
    rcases accessSet_cases sets (admitted address) (s.cache.accessCount + 1) with ⟨-, -, hhit, -⟩ | ⟨-, -, hs'⟩
    · cases hmiss.trans hhit
    · obtain rfl := CacheStore.setAssociative.inj (ht.symm.trans (hstore.trans hs'))
      simp only [getElem_set_fin_self]
      exact ⟨_, replaced_was_oldest hfull (fun w v hne => hapart _ _ w v fun he => hne (Prod.mk.inj he).2)
        (victimWay_spec _) (Nat.lt_succ_of_le (hline _ _).accessTime_le)⟩

/-- Settles O54: the second access leaves its own tag in the one line both addresses may take. -/
theorem directConflictEvicts : Obligations.DirectConflictEvicts := by
  intro s a b rest lines h hcount hs hb0 hb64 hne hmod
  obtain ⟨hfirst, ha, -⟩ := step_of_acceptsAccess h
  have hsecondAccepts := acceptsAccess_next h ⟨hb0, hb64⟩ (Nat.lt_of_succ_lt hcount)
  obtain ⟨hsecond, hb, -⟩ := step_of_acceptsAccess hsecondAccepts
  have hthirdAccepts := acceptsAccess_next hsecondAccepts (admits_eq_true.1 ha) hcount
  have hindex : directIndex (admitted a) = directIndex (admitted b) :=
    directIndex_admitted_eq ha ((directIndex_admitted hb).trans hmod.symm)
  have hpolicy := (acceptAccess_policy b _).trans ((acceptAccess_policy a _).trans (congrArg CacheStore.policy hs))
  have hmiss := accessStore_miss_of_conflict hpolicy (accessStore_caches _ _ _) hindex
    fun he => hne ((admitted_inj ha hb).1 he)
  obtain ⟨t, r, hthird, -, -, hout, -⟩ := step_of_outcome hthirdAccepts rfl rfl
  refine ⟨t, .access r, ?_, hout.trans (congrArg (fun hit => some (Response.accessed hit (.access r))) (hmiss _))⟩
  rw [run_succ_of_next hfirst, run_succ_of_next hsecond, run_succ_of_next hthird]; rfl
end

section
/-! PROOF. O42 to O46: set_mapping_policy, cache reset and an access out of range (45_cache_engine.md R200, R201, R211,
R230, R231). -/

namespace Sys2Proof.Machine

theorem CacheStore.cleared_policy (p : Policy) : (CacheStore.cleared p).policy = p := by
  cases p <;> rfl

theorem step_of_setMappingPolicy {s : State} {p : Policy} {rest : List Transaction}
    (h : s.requests = .setMappingPolicy p :: rest) : step s = .next { s with
      cache := ⟨.cleared p, 0, 0, s.cache.log, none⟩, requests := rest, output := some .policySet } :=
  step_of_request h

theorem step_of_cacheReset {s : State} {rest : List Transaction} (h : s.requests = .cacheReset :: rest) :
    step s = .next { s with
      cache := ⟨.cleared s.cache.store.policy, 0, 0, [.reset], none⟩, requests := rest,
      output := some .cacheReset } :=
  step_of_request h

/-- The range is checked before the counter (45_cache_engine.md R211; 60_exceptions.md R265). -/
theorem access_of_out_of_range {address : Int} {s : State} (hf : s.cache.fault = none)
    (ha : admits address = false) : access address s =
      (s.withCache { s.cache with log := s.cache.log ++ [.addressRange address] }).respond
        (.accessError (.addressRange address)) :=
  (if_neg (not_not.2 hf)).trans (if_pos ha)

end Sys2Proof.Machine

open Sys2Proof Sys2Proof.Machine

/-- Settles O42: the cache record is the configured one, and the shape set is that of the policy. -/
theorem setMappingPolicyResult : Obligations.SetMappingPolicyResult := fun _ p _ h =>
  ⟨step_of_setMappingPolicy h, CacheStore.cleared_policy p⟩

/-- Settles O43: nothing of the first result but its log enters the second, and the log is kept. -/
theorem setMappingPolicyIdempotent : Obligations.SetMappingPolicyIdempotent := fun _ _ _ h =>
  ⟨_, _, step_of_setMappingPolicy h, step_of_setMappingPolicy rfl, rfl, rfl, rfl, rfl, rfl⟩

/-- Settles O44: set_mapping_policy with the policy in force, and the log written anew. -/
theorem cacheResetResult : Obligations.CacheResetResult := fun _ _ h => step_of_cacheReset h

/-- Settles O45: the second reset finds the policy the first one kept. -/
theorem cacheResetIdempotent : Obligations.CacheResetIdempotent := by
  intro s rest h
  refine ⟨_, _, step_of_cacheReset h, step_of_cacheReset rfl, ?_, rfl⟩
  rw [CacheStore.cleared_policy]

/-- Settles O46: the range check fails before the counter is looked at. -/
theorem accessOutOfRange : Obligations.AccessOutOfRange := fun _ _ _ h hf hrange =>
  (step_of_request h).trans (congrArg Host.Outcome.next (access_of_out_of_range hf (admits_eq_false.2 hrange)))
end

section
/-! PROOF. O47: the cache fault, the refusals after it, and what clears it (45_cache_engine.md R210, R211;
60_exceptions.md R263, R266). -/

namespace Sys2Proof.Machine

/-! ### An access that faults, and one that is refused -/

/-- The counter is checked last, before anything is written (45_cache_engine.md R211). -/
theorem access_of_last_count {address : Int} {s : State} (hf : s.cache.fault = none) (ha : admits address = true)
    (hc : s.cache.accessCount = lastCount s.params.ctrWidth) : access address s =
      (s.withCache { s.cache with
        log := s.cache.log ++ [.counterOverflow address], fault := some (.counterOverflow address) }).respond
        (.accessFault (.counterOverflow address)) :=
  (if_neg (not_not.2 hf)).trans ((if_neg (by simp [ha])).trans (if_pos hc))

/-- The fault is checked before the address and the counter (45_cache_engine.md R210; 60_exceptions.md R266). -/
theorem step_of_access_halted {s : State} {address : Int} {rest : List Transaction}
    (h : s.requests = .access address :: rest) (hf : s.cache.fault ≠ none) :
    step s = .next { s with requests := rest, output := some (.refused .cacheHalted) } :=
  (step_of_request h).trans (congrArg Host.Outcome.next (if_pos hf))

/-! ### What clears a recorded fault -/

/-- A step of a halted cache that leaves it without a fault performs set_mapping_policy or cache reset: the CPU
transactions keep the cache record, and so does a refused access. -/
theorem request_of_fault_cleared {s t : State} (h : step s = .next t) (hf : s.cache.fault ≠ none)
    (ht : t.cache.fault = none) :
    (∃ p, s.requests.head? = some (.setMappingPolicy p)) ∨ s.requests.head? = some .cacheReset := by
  have hwritten : t.cache ≠ s.cache := fun he => hf (he ▸ ht)
  cases hturn : s.cpuTurn with
  | true => exact absurd (cpuIndependentOfCache s t s.cache hturn h).1 hwritten
  | false =>
    obtain ⟨rest, ⟨p, hr⟩ | ⟨a, hr⟩ | hr⟩ := State.cpuTurn_eq_false.1 hturn
    · exact .inl ⟨p, congrArg List.head? hr⟩
    · cases (step_of_access_halted hr hf).symm.trans h
      exact absurd rfl hwritten
    · exact .inr (congrArg List.head? hr)

/-- Both set_mapping_policy and cache reset leave no fault (45_cache_engine.md R200, R230). -/
theorem fault_cleared_of_request {s t : State} (h : step s = .next t)
    (hreq : (∃ p, s.requests.head? = some (.setMappingPolicy p)) ∨ s.requests.head? = some .cacheReset) :
    t.cache.fault = none := by
  rcases hreq with ⟨p, hhead⟩ | hhead <;> obtain ⟨rest, hr⟩ := List.head?_eq_some_iff.1 hhead
  · cases (step_of_setMappingPolicy hr).symm.trans h; rfl
  · cases (step_of_cacheReset hr).symm.trans h; rfl

end Sys2Proof.Machine

open Sys2Proof Sys2Proof.Machine

/-- Settles O47: the counter check writes the fault, the fault check refuses before it, and only the two transactions
that configure the cache clear it. -/
theorem cacheFaultEffect : Obligations.CacheFaultEffect := by
  intro s address rest
  refine ⟨fun hr hf h0 h64 hcount => ?_, step_of_access_halted,
    fun t h hf => ⟨request_of_fault_cleared h hf, fault_cleared_of_request h⟩⟩
  have ha : admits address = true := admits_eq_true.2 ⟨h0, h64⟩
  exact (step_of_request hr).trans (congrArg Host.Outcome.next
    (access_of_last_count (s := s.withRequests rest) hf ha hcount))
end
